-- ==== Sys2Proof/Word.lean ====
section
/-! DEFINITION. The value types of the block: bytes, channels, 16-bit words, colors (R55, R56, R78),
and a result type with a named error. Every value is an unsigned integer (00_scope.md section 6). -/

namespace Sys2Proof

/-- One byte: an 8-bit channel (R9 `CH8`), a buffer byte, a register. -/
abbrev Byte := BitVec 8

/-- A 5-bit channel, 0..31 (R9 `CH5`). -/
abbrev Chan5 := BitVec 5

/-- A Bgr15 word, 16 bits (R56). -/
abbrev Word16 := BitVec 16

/-- A HexColor: three 8-bit channels (R55). -/
structure Color where
  r : Byte
  g : Byte
  b : Byte
  deriving DecidableEq, Repr

/-- Success with a value, or one named error. -/
inductive Result (ε α : Type) where
  | ok    (a : α)
  | error (e : ε)
  deriving DecidableEq, Repr

end Sys2Proof
end

