-- ==== Sys2Proof/Config.lean ====
section
/-! DEFINITION. The parameters of the block (R9), the map of its register window (R31), the one
parameter the platform chooses (`BASE`), and the free values. -/

namespace Sys2Proof.Config

/-- `NCOL`: colors in a palette (R9). -/
abbrev nCol : Nat := 16

/-- `SCALE`: the scaling constant (R9, R70, R73). -/
abbrev scale : Nat := 8

/-- `MAGIC`: the four bytes that open a TPL file (R9, R59). -/
def magic : List Byte := [0x54#8, 0x50#8, 0x4C#8, 0x00#8]

/-- `TPL_LEN` (R9). -/
abbrev tplLen : Nat := 52

/-- `PAL_BYTES`: a palette as bytes (R9). -/
abbrev palBytes : Nat := 48

/-- `BGR_BYTES`: a palette as Bgr15 bytes (R9). -/
abbrev bgrBytes : Nat := 32

/-- `PAD`: the padding color, black (R9). -/
def pad : Color := ⟨0#8, 0#8, 0#8⟩

/-- The size of `IBUF` and of `OBUF` (R9, R12, R13). -/
abbrev bufSize : Nat := 52

/-- The size of the register window (R9, R30). -/
abbrev windowSize : Nat := 256

/-- Offsets of the registers and buffers in the window (R31). -/
abbrev offCmd : Nat := 0x00
/-- Offset of `STATUS` (R31). -/
abbrev offStatus : Nat := 0x01
/-- Offset of `ILEN` (R31). -/
abbrev offIlen : Nat := 0x02
/-- Offset of `OLEN` (R31). -/
abbrev offOlen : Nat := 0x03
/-- Offset of `IBUF[0]` (R31). -/
abbrev offIbuf : Nat := 0x40
/-- Offset of `OBUF[0]` (R31). -/
abbrev offObuf : Nat := 0x80

/-- `BASE`, where the platform puts the window: `OPEN` (R9, R30, U7). No body: no rule depends on it.
Log entry 11. -/
opaque base : Nat

/-- The FREE VALUE of one read of an unspecified byte (U1 to U4: "any value", drawn afresh at every read).
`drawNo` is the number of the draw (`State.draws`), `slot` the window offset that is read.
No body: nothing constrains it. DESIGN CHOICE, log entries 1 to 4. -/
opaque freeByte (drawNo slot : Nat) : Byte

end Sys2Proof.Config
end

