-- ==== Sys2Proof/Syntax.lean ====
section
/-! DEFINITION. The six operations (R51), the agents that take turns (R6, R22, R190), the host's single
accesses (R32, R33) and the program notation of R61. -/

namespace Sys2Proof

/-- The operation set TPC-OPS (R1, R51). No operation has an explicit operand (R52). -/
inductive Instr where
  /-- PACK, 0x01 (R72). -/
  | pack
  /-- UNPACK, 0x02 (R75). -/
  | unpack
  /-- TPLDEC, 0x03 (R91). -/
  | tpldec
  /-- TPLENC, 0x04 (R95). -/
  | tplenc
  /-- PAL2BGR, 0x05 (R111). -/
  | pal2bgr
  /-- BGR2PAL, 0x06 (R114). -/
  | bgr2pal
  deriving DecidableEq, Repr

/-- Who takes the next step. The host and the block are R6's two agents; `reset` is the platform's reset
input (R190), "one step that may be taken at any time" (U7). -/
inductive Turn where
  | host
  | block
  | reset
  deriving DecidableEq, Repr

/-- What the host does in one of its turns: at most one byte access of the window (R42). -/
inductive HostAction where
  /-- `MemRead(addr, width)` at a window offset (R32). -/
  | memRead (addr width : Nat)
  /-- `MemWrite(addr, width, v)` at a window offset (R33). -/
  | memWrite (addr width : Nat) (v : Byte)
  /-- A read at a bus address, reached through `BASE` (R30). -/
  | busRead (addr width : Nat)
  /-- A write at a bus address, reached through `BASE` (R30). -/
  | busWrite (addr width : Nat) (v : Byte)
  /-- Read `STATUS` and go on once `BUSY = 0` (R204 step 1). -/
  | pollIdle
  /-- Read `STATUS` and go on once `DONE = 1` (R61 `WAIT`). -/
  | pollDone
  /-- Read `OLEN`, then the result bytes it counts (R61 `READ`, first access). -/
  | readLen
  /-- Read result byte `k` (R61 `READ`, a later access). -/
  | readOut (k : Nat)
  /-- Load the bytes last read (R61 `XFER`, second half); no access of its own. -/
  | reload
  /-- Stop the program if the last status seen has `ERR` other than 0 (R145, R198); no access. -/
  | stopOnError
  deriving DecidableEq, Repr

/-- A line of a host program (R61), with the two lines R204 (1) and 95_test_vectors.md P3 add. -/
inductive HostLine where
  /-- `LOAD b0 b1 ...`. -/
  | load (bs : List Byte)
  /-- `LOADAT k: b0 b1 ...`. -/
  | loadAt (k : Nat) (bs : List Byte)
  /-- `SETLEN n`. -/
  | setLen (n : Byte)
  /-- A mnemonic. -/
  | op (i : Instr)
  /-- `CMD v`, an arbitrary command byte. -/
  | cmd (v : Byte)
  /-- `WAIT`. -/
  | wait
  /-- `READ`. -/
  | read
  /-- `XFER` (for more than 52 bytes see log entry 25). -/
  | xfer
  /-- Wait until idle (R204 step 1). -/
  | waitIdle
  /-- "if STATUS[2:0] != 0: stop and report" (P3; R145, R198). -/
  | stopOnError
  deriving DecidableEq, Repr

/-- The `OPEN` parameters of the host text layer (R146, D25). -/
structure HostParams where
  /-- `host.line_breaks`: the strings that break lines; at one position the first that matches counts. -/
  lineBreaks : List (List Char)
  /-- `host.blank_is_whitespace_only`. -/
  blankIsWhitespaceOnly : Bool
  /-- `host.trim_lines`. -/
  trimLines : Bool
  /-- `host.whitespace`. -/
  whitespace : List Char
  deriving DecidableEq, Repr

/-- The error kinds of the host text layer (R160, R176). None has an `ERR` code. -/
inductive TextError where
  /-- `InvalidFormat`, a malformed hex string (R131). -/
  | invalidFormat
  /-- `OutOfRange`, an integer channel outside 0..255 (R132). -/
  | outOfRange
  /-- `InvalidByteSequence`, a non-hex character in BGR text (R138). -/
  | invalidByteSequence
  deriving DecidableEq, Repr

end Sys2Proof
end

