-- ==== Sys2Proof/WellFormed.lean ====
section
/-! DEFINITION. Well-formedness of what is written down: instructions, host accesses, program lines and
host parameters. -/

namespace Sys2Proof

/-- An instruction has no operand field (R50, R52), so every one is well formed. -/
def Instr.wf : Instr → Bool
  | .pack => true
  | .unpack => true
  | .tpldec => true
  | .tplenc => true
  | .pal2bgr => true
  | .bgr2pal => true

/-- "The only access width is one byte" (R35). -/
def HostAction.wf : HostAction → Bool
  | .memRead _ width => width == 1
  | .memWrite _ width _ => width == 1
  | .busRead _ width => width == 1
  | .busWrite _ width _ => width == 1
  | .pollIdle => true
  | .pollDone => true
  | .readLen => true
  | .readOut _ => true
  | .reload => true
  | .stopOnError => true

/-- `LOAD` takes at most 52 bytes (R61). -/
def HostLine.wf : HostLine → Bool
  | .load bs => bs.length ≤ Config.bufSize
  | .loadAt _ _ => true
  | .setLen _ => true
  | .op i => i.wf
  | .cmd _ => true
  | .wait => true
  | .read => true
  | .xfer => true
  | .waitIdle => true
  | .stopOnError => true

/-- A line break is a nonempty string (log entry 20). -/
def HostParams.wf (p : HostParams) : Bool :=
  p.lineBreaks.all fun b => !b.isEmpty

end Sys2Proof
end

