-- ==== Sys2Proof/Decode.lean ====
section
/-! DEFINITION. The command byte: the decoder, total on all 256 bytes and rejecting by name (R50, R51, R53),
and the encoder written from the same table (R51). -/

namespace Sys2Proof

/-- Why a command byte selects no operation (R53). -/
inductive DecodeError where
  /-- 0x00. -/
  | noOperation
  /-- 0x07, the one unused `OP` value with `RSV = 0`. -/
  | unusedCode
  /-- A bit of `RSV` is set, whatever the `OP` bits. -/
  | reservedBits
  deriving DecidableEq, Repr

/-- `RSV`, bits 7:3 of the command byte (R50). -/
def cmdRsv (b : Byte) : BitVec 5 := b.extractLsb' 3 5

/-- `OP`, bits 2:0 of the command byte (R50). -/
def cmdOp (b : Byte) : BitVec 3 := b.extractLsb' 0 3

/-- The operation an `OP` value selects (R51). -/
def decodeOp (op : BitVec 3) : Result DecodeError Instr :=
  match op.toNat with
  | 1 => .ok .pack
  | 2 => .ok .unpack
  | 3 => .ok .tpldec
  | 4 => .ok .tplenc
  | 5 => .ok .pal2bgr
  | 6 => .ok .bgr2pal
  | 7 => .error .unusedCode
  | _ => .error .noOperation

/-- The decoder. It looks at the whole byte and at no state (R50, R54). -/
def decode (b : Byte) : Result DecodeError Instr :=
  if cmdRsv b = 0 then decodeOp (cmdOp b) else .error .reservedBits

/-- The `OP` value of an operation (R51). -/
def encodeOp : Instr → BitVec 3
  | .pack => 0b001#3
  | .unpack => 0b010#3
  | .tpldec => 0b011#3
  | .tplenc => 0b100#3
  | .pal2bgr => 0b101#3
  | .bgr2pal => 0b110#3

/-- The command byte of an operation: `RSV = 0`, then `OP` (R50, R51). -/
def encode (i : Instr) : Byte := 0b00000#5 ++ encodeOp i

/-- The mnemonic of an operation (R51). -/
def Instr.mnemonic : Instr → String
  | .pack => "PACK"
  | .unpack => "UNPACK"
  | .tpldec => "TPLDEC"
  | .tplenc => "TPLENC"
  | .pal2bgr => "PAL2BGR"
  | .bgr2pal => "BGR2PAL"

/-- The decoder on a word of spec/opcode_table.json: a command is exactly one byte (R50). -/
def decodeTableWord (nbits w : Nat) : Option Instr :=
  if nbits = 8 ∧ w < 256 then
    match decode (BitVec.ofNat 8 w) with
    | .ok i => some i
    | .error _ => none
  else none

end Sys2Proof
end

