-- ==== Sys2Proof/Machine/State.lean ====
section
/-! DEFINITION. The state of the machine: the block's registers and buffers (10_state.md section 1), the
host's pending accesses and what it has read (R6, R61), and who moves next (R22, R201). Plain data. -/

namespace Sys2Proof.Machine

/-- A buffer: the bytes that are specified, as (index, byte) pairs with strictly rising indices.
A byte that is not listed is unspecified: it has no value, and each read of it draws a free value
(R12, R13, U1 to U3; log entries 1 and 2). -/
abbrev Memory := List Host.Cell

/-- Error status codes (R161). Codes 4 to 7 are never produced. -/
inductive ErrCode where
  /-- 0 `OK`. -/
  | ok
  /-- 1 `INVALID_HEADER` (R162). -/
  | invalidHeader
  /-- 2 `TRUNCATED_FILE` (R163). -/
  | truncatedFile
  /-- 3 `ILLEGAL_OP` (R164). -/
  | illegalOp
  deriving DecidableEq, Repr

/-- The host agent (R6): its program as single accesses, and what it has seen. -/
structure HostAgent where
  /-- Accesses still to be issued, first one first (R42, R61). -/
  todo : List HostAction
  /-- The value the latest read returned (R32). -/
  lastRead : Byte
  /-- The last `STATUS` value a wait saw (R61 `WAIT`). -/
  status : Byte
  /-- The result bytes collected by the latest `READ` (R61). -/
  got : List Byte
  deriving DecidableEq, Repr

/-- The state. `cmd`, `status`, `ilen`, `olen`, `ibuf`, `obuf` are the block's, and there is no other state
in the block (10_state.md section 1, R20). `draws`, `host` and `turns` are the model's own (log entries 4
to 6). -/
structure State where
  /-- `CMD` (R16). -/
  cmd : Byte
  /-- `STATUS` (R17). -/
  status : Byte
  /-- `ILEN` (R14). -/
  ilen : Byte
  /-- `OLEN` (R15). -/
  olen : Byte
  /-- `IBUF[0..51]` (R12): the bytes the host has written since reset. -/
  ibuf : Memory
  /-- `OBUF[0..51]` (R13): the result bytes of the last completed operation. -/
  obuf : Memory
  /-- How many free values have been drawn (the model's own; log entry 4). -/
  draws : Nat
  /-- The host agent (the model's own; log entry 6). -/
  host : HostAgent
  /-- Who moves next (the model's own; log entry 5). -/
  turns : List Turn
  deriving DecidableEq, Repr

/-- No step faults: "No access to the window faults" (R34) and no error is fatal (R168).
The type has no constructor. -/
inductive Fault where
  deriving DecidableEq, Repr

/-- Why the model gives no next state. -/
inductive Refusal where
  /-- An instruction without a meaning: raised by no arm of `exec`. Safe. -/
  | notModelled (mnemonic : String)
  /-- A host access of the window wider or narrower than one byte, raised by a host turn only: "a model should
  refuse a wider access" (R35, U6). Safe: nothing is claimed of it. -/
  | wideAccess
  deriving DecidableEq, Repr

/-- The host agent before it has done anything (DESIGN CHOICE, log entry 6). -/
def HostAgent.init : HostAgent := { todo := [], lastRead := 0, status := 0, got := [] }

/-- The state after reset (R21, R190): registers 0x00, every buffer byte unspecified. -/
def State.reset : State :=
  { cmd := 0x00#8, status := 0x00#8, ilen := 0x00#8, olen := 0x00#8, ibuf := [], obuf := [],
    draws := 0, host := HostAgent.init, turns := [] }

end Sys2Proof.Machine
end

