-- ==== Sys2Proof/Machine/Flags.lean ====
section
/-! DEFINITION. The fields of `STATUS` (R17), their composition, and the error codes (R161). -/

namespace Sys2Proof.Machine

/-- The number of an error status (R161). -/
def ErrCode.code : ErrCode → BitVec 3
  | .ok => 0
  | .invalidHeader => 1
  | .truncatedFile => 2
  | .illegalOp => 3

/-- `BUSY`, bit 7 of a `STATUS` value (R17). -/
def busyBit (v : Byte) : Bool := v.getLsbD 7

/-- `DONE`, bit 6 of a `STATUS` value (R17). -/
def doneBit (v : Byte) : Bool := v.getLsbD 6

/-- `RSV`, bits 5:3 of a `STATUS` value (R17). -/
def rsvBits (v : Byte) : BitVec 3 := v.extractLsb' 3 3

/-- `ERR`, bits 2:0 of a `STATUS` value (R17). -/
def errBits (v : Byte) : BitVec 3 := v.extractLsb' 0 3

/-- The `STATUS` value with the given fields; bits 5:3 are 0 (R17). -/
def statusOf (busy done : Bool) (err : BitVec 3) : Byte :=
  BitVec.ofBool busy ++ BitVec.ofBool done ++ 0b000#3 ++ err

/-- `STATUS` while an operation is in progress (R18 (a)): 0x80. -/
def busyStatus : Byte := statusOf true false 0

/-- `STATUS` after a completion (R18 (b)): 0x40 plus the error code. -/
def doneStatus (e : ErrCode) : Byte := statusOf false true e.code

/-- The block is busy (R22). -/
def State.busy (s : State) : Bool := busyBit s.status

/-- The six values `STATUS` ever takes (R17). -/
def legalStatus (v : Byte) : Bool :=
  [0x00#8, 0x80#8, 0x40#8, 0x41#8, 0x42#8, 0x43#8].contains v

end Sys2Proof.Machine
end

