-- ==== Sys2Proof/Machine/Ops.lean ====
section
/-! DEFINITION. The operations over buffers and registers: buffer reads and writes, free values, the host's
byte read and byte write (R32, R33), acceptance and completion (R18), raising an error (R165), reset (R190). -/

namespace Sys2Proof.Machine

/-! ## Buffers -/

/-- The byte listed at index `i`; `none` where the byte is unspecified. -/
def Memory.lookup : Memory → Nat → Option Byte
  | [], _ => none
  | (a, b) :: m, i => if a = i then some b else Memory.lookup m i

/-- Write byte `b` at index `i`, keeping the indices rising. -/
def Memory.store : Memory → Nat → Byte → Memory
  | [], i, b => [(i, b)]
  | (a, c) :: m, i, b =>
    if i < a then (i, b) :: (a, c) :: m
    else if i = a then (i, b) :: m
    else (a, c) :: Memory.store m i b

/-- The buffer that lists exactly the bytes of a sequence, from index `k` on. -/
def Memory.ofBytesFrom : Nat → List Byte → Memory
  | _, [] => []
  | k, b :: bs => (k, b) :: Memory.ofBytesFrom (k + 1) bs

/-- The buffer whose first bytes are the sequence and whose other bytes are unspecified (R13). -/
def Memory.ofBytes (bs : List Byte) : Memory := Memory.ofBytesFrom 0 bs

/-- Indices strictly rising, from `lo` on, and below the size of a buffer. -/
def Memory.wfFrom : Nat → Memory → Bool
  | _, [] => true
  | lo, (a, _) :: m => decide (lo ≤ a) && decide (a < Config.bufSize) && Memory.wfFrom (a + 1) m

/-- The canonical form: indices strictly rising and below 52. No listed byte can equal what an unlisted one
reads as, because an unlisted one has no fixed value. -/
def Memory.wf (m : Memory) : Bool := Memory.wfFrom 0 m

/-! ## Free values -/

/-- Draw the free value of one read of an unspecified byte at window offset `slot` (U1 to U4). -/
def draw (slot : Nat) (s : State) : Byte × State :=
  (Config.freeByte s.draws slot, { s with draws := s.draws + 1 })

/-! ## Acceptance, completion, errors, reset -/

/-- Acceptance of a command byte (R18 (a), R33): `CMD` stores it, `BUSY <- 1`, `DONE <- 0`, `ERR <- 0`.
What `OLEN` and `OBUF` hold stays hidden until completion (R32; log entry 16). -/
def accept (v : Byte) (s : State) : State :=
  { s with cmd := v, status := busyStatus }

/-- The completion step (R18 (b), R43), all at once: the result bytes in `OBUF`, every other byte of it
unspecified (R13), `OLEN`, `ERR`, `BUSY <- 0`, `DONE <- 1`. The operation's draws of free values are over. -/
def complete (e : ErrCode) (result : List Byte) (s : State) : State :=
  { s with
    obuf := Memory.ofBytes result
    olen := BitVec.ofNat 8 result.length
    status := doneStatus e
    draws := s.draws + 1 }

/-- `raise <Error>` (R165): the operation completes with the code, `OLEN = 0` and all of `OBUF`
unspecified. Nothing transfers control and there is no return from it (R168, R171). -/
def raise (e : ErrCode) (s : State) : State := complete e [] s

/-- Reset applied (R190, R191): registers 0x00, every buffer byte unspecified, the operation in progress
abandoned. The host and the turns are not the block's and stay (log entry 14); later draws stay fresh. -/
def applyReset (s : State) : State :=
  { State.reset with draws := s.draws, host := s.host, turns := s.turns }

/-- Use up one entry of the list of turns. -/
def State.popTurn (s : State) : State := { s with turns := s.turns.tail }

/-! ## The register window -/

/-- What a host byte read at window offset `addr` returns (R31, R32, R34); `none` where the value is
unspecified. Outside the window everything belongs to the platform (R31), so nothing is specified. -/
def windowByte (s : State) (addr : Nat) : Option Byte :=
  if addr = Config.offCmd then some s.cmd
  else if addr = Config.offStatus then some s.status
  else if addr = Config.offIlen then some s.ilen
  else if addr = Config.offOlen then (if s.busy then none else some s.olen)
  else if Config.offIbuf ≤ addr ∧ addr < Config.offIbuf + Config.bufSize then
    Memory.lookup s.ibuf (addr - Config.offIbuf)
  else if Config.offObuf ≤ addr ∧ addr < Config.offObuf + Config.bufSize then
    (if s.busy then none else Memory.lookup s.obuf (addr - Config.offObuf))
  else if addr < Config.windowSize then some 0x00#8
  else none

/-- A host byte read (R32): the value, and the state after. Only the model's own draw counter can change,
and only where the value is unspecified. -/
def hostRead (addr : Nat) (s : State) : Byte × State :=
  match windowByte s addr with
  | some v => (v, s)
  | none => draw addr s

/-- A host byte write (R33, R34): ignored while busy; a write to `CMD` starts an operation; `ILEN` and
`IBUF` store; every other offset ignores it. -/
def hostWrite (addr : Nat) (v : Byte) (s : State) : State :=
  if s.busy then s
  else if addr = Config.offCmd then accept v s
  else if addr = Config.offIlen then { s with ilen := v }
  else if Config.offIbuf ≤ addr ∧ addr < Config.offIbuf + Config.bufSize then
    { s with ibuf := Memory.store s.ibuf (addr - Config.offIbuf) v }
  else s

/-- The window offset of a bus address (R30); `none` outside the window. -/
def busOffset (addr : Nat) : Option Nat :=
  if Config.base ≤ addr ∧ addr < Config.base + Config.windowSize then some (addr - Config.base) else none

end Sys2Proof.Machine
end

