-- ==== Sys2Proof/Machine/Operands.lean ====
section
/-! DEFINITION. The implicit operands (R52, R60) and the data formats of 30_encoding.md section 3: bytes of
`IBUF`, little-endian Bgr15 words, RGB triples, palettes. -/

namespace Sys2Proof.Machine

/-- The byte of `IBUF[i]` that the operation in progress reads (R40): the byte the host wrote, or, where it
wrote none since reset, a free value (R193, U1). -/
def State.ibufByte (s : State) (i : Nat) : Byte :=
  (Memory.lookup s.ibuf i).getD (Config.freeByte s.draws (Config.offIbuf + i))

/-- `IBUF[0..n-1]` as a sequence. -/
def State.readIn (s : State) (n : Nat) : List Byte := (List.range n).map s.ibufByte

/-- `le16(lo, hi) = (hi << 8) | lo` (R36, R52). -/
def le16 (lo hi : Byte) : Word16 := (hi.setWidth 16 <<< 8) ||| lo.setWidth 16

/-- Bits 7:0 of a Bgr15 word, its first byte (R36). -/
def loByte (w : Word16) : Byte := w.extractLsb' 0 8

/-- Bits 15:8 of a Bgr15 word, its second byte (R36). -/
def hiByte (w : Word16) : Byte := w.extractLsb' 8 8

/-- A color in a buffer: R, G, B (R37, R55). -/
def colorBytes (c : Color) : List Byte := [c.r, c.g, c.b]

/-- A Bgr15 word in a buffer: low byte, then high byte (R36, R56). -/
def wordBytes (w : Word16) : List Byte := [loByte w, hiByte w]

/-- The complete RGB triples of a byte sequence, in order (R57). -/
def colorsOf : List Byte → List Color
  | r :: g :: b :: rest => ⟨r, g, b⟩ :: colorsOf rest
  | _ => []

/-- The complete little-endian words of a byte sequence, in order (R112); a last byte without a partner
forms no word (R116). -/
def wordsOf : List Byte → List Word16
  | lo :: hi :: rest => le16 lo hi :: wordsOf rest
  | _ => []

/-- A palette as bytes: entry `i` at `3i`, `3i+1`, `3i+2` (R57). -/
def paletteBytes (cs : List Color) : List Byte := cs.flatMap colorBytes

/-- Padding with black, after the entries there are, to 16 entries (R115). -/
def padPalette (cs : List Color) : List Color := cs ++ List.replicate (Config.nCol - cs.length) Config.pad

/-- How many file bytes the block can read (R14, R91): `min(ILEN, 52)`. -/
def State.fileLen (s : State) : Nat := min s.ilen.toNat Config.tplLen

/-- How many stream bytes the block can read (R14, R114): `min(ILEN, 32)`. -/
def State.streamLen (s : State) : Nat := min s.ilen.toNat Config.bgrBytes

end Sys2Proof.Machine
end

