-- ==== Sys2Proof/Machine/Bgr.lean ====
section
/-! DEFINITION. The BGR15 converter (40_bgr_codec.md): the pure functions and the operations PACK, UNPACK. -/

namespace Sys2Proof.Machine

/-- `scale8to5(c) = floor(c / 8)` (R70). -/
def scale8to5 (c : Byte) : Chan5 := BitVec.ofNat 5 (c.toNat / Config.scale)

/-- `scale5to8(c) = c * 8` (R73). -/
def scale5to8 (c : Chan5) : Byte := BitVec.ofNat 8 (c.toNat * Config.scale)

/-- `pack15(R, G, B) = scale8to5(B)*1024 + scale8to5(G)*32 + scale8to5(R)` (R71). -/
def pack15 (c : Color) : Word16 :=
  BitVec.ofNat 16 ((scale8to5 c.b).toNat * 1024 + (scale8to5 c.g).toNat * 32 + (scale8to5 c.r).toNat)

/-- `unpack15(value)` (R74): total on all 16-bit words, bit 15 ignored. -/
def unpack15 (w : Word16) : Color :=
  { r := scale5to8 (BitVec.ofNat 5 (w.toNat % 32))
    g := scale5to8 (BitVec.ofNat 5 (w.toNat / 32 % 32))
    b := scale5to8 (BitVec.ofNat 5 (w.toNat / 1024 % 32)) }

/-- PACK (R72). -/
def execPack (s : State) : Host.Outcome State Fault Refusal :=
  .next (complete .ok (wordBytes (pack15 ⟨s.ibufByte 0, s.ibufByte 1, s.ibufByte 2⟩)) s)

/-- UNPACK (R75). -/
def execUnpack (s : State) : Host.Outcome State Fault Refusal :=
  .next (complete .ok (colorBytes (unpack15 (le16 (s.ibufByte 0) (s.ibufByte 1)))) s)

end Sys2Proof.Machine
end

