-- ==== Sys2Proof/Machine/Palette.lean ====
section
/-! DEFINITION. The palette conversions (42_palette_conversion.md): the pure functions and the operations
PAL2BGR, BGR2PAL. -/

namespace Sys2Proof.Machine

/-- `pal_to_bgr(p)` (R110): each color packed, low byte then high byte, in index order. -/
def palToBgr (p : List Byte) : List Byte := (colorsOf p).flatMap fun c => wordBytes (pack15 c)

/-- The colors of a Bgr15 byte stream (R113): at most the first 16 words, each unpacked, then black. -/
def bgrColors (stream : List Byte) : List Color :=
  padPalette (((wordsOf stream).take Config.nCol).map unpack15)

/-- `bgr_to_pal(s)` (R113). -/
def bgrToPal (stream : List Byte) : List Byte := paletteBytes (bgrColors stream)

/-- PAL2BGR (R111): the palette is `IBUF[0..47]`; `ILEN` is not read. -/
def execPal2bgr (s : State) : Host.Outcome State Fault Refusal :=
  .next (complete .ok (palToBgr (s.readIn Config.palBytes)) s)

/-- BGR2PAL (R114): the stream is `IBUF[0..min(ILEN,32)-1]`. -/
def execBgr2pal (s : State) : Host.Outcome State Fault Refusal :=
  .next (complete .ok (bgrToPal (s.readIn s.streamLen)) s)

end Sys2Proof.Machine
end

