-- ==== Sys2Proof/Machine/Tpl.lean ====
section
/-! DEFINITION. The TPL file codec (41_tpl_codec.md): the pure functions and the operations TPLDEC, TPLENC. -/

namespace Sys2Proof.Machine

/-- The magic validator (R92): there are at least 4 bytes and the first 4 are exactly the magic. -/
def headerValid (bytes : List Byte) : Bool := bytes.take 4 == Config.magic

/-- `tpl_decode(bytes)` (R90): header first, length second (R166), then the 48 payload bytes. -/
def tplDecode (bytes : List Byte) : Result ErrCode (List Byte) :=
  if headerValid bytes then
    if bytes.length < Config.tplLen then .error .truncatedFile
    else .ok ((bytes.drop 4).take Config.palBytes)
  else .error .invalidHeader

/-- `tpl_encode(palette)` (R94). -/
def tplEncode (palette : List Byte) : List Byte := Config.magic ++ palette

/-- TPLDEC (R91): the file is `IBUF[0..min(ILEN,52)-1]`. -/
def execTpldec (s : State) : Host.Outcome State Fault Refusal :=
  .next (match tplDecode (s.readIn s.fileLen) with
    | .ok palette => complete .ok palette s
    | .error e => raise e s)

/-- TPLENC (R95): the palette is `IBUF[0..47]`; `ILEN` is not read. -/
def execTplenc (s : State) : Host.Outcome State Fault Refusal :=
  .next (complete .ok (tplEncode (s.readIn Config.palBytes)) s)

end Sys2Proof.Machine
end

