-- ==== Sys2Proof/Machine/Dispatch.lean ====
section
/-! DEFINITION. One arm per operation: the completion step (R18 (b)) of the command that selects it. -/

namespace Sys2Proof.Machine

def exec (i : Instr) (s : State) : Host.Outcome State Fault Refusal :=
  match i with
  | .pack => Sys2Proof.Machine.execPack s
  | .unpack => Sys2Proof.Machine.execUnpack s
  | .tpldec => Sys2Proof.Machine.execTpldec s
  | .tplenc => Sys2Proof.Machine.execTplenc s
  | .pal2bgr => Sys2Proof.Machine.execPal2bgr s
  | .bgr2pal => Sys2Proof.Machine.execBgr2pal s

end Sys2Proof.Machine
end

