-- ==== Sys2Proof/Machine/HostPort.lean ====
section
/-! DEFINITION. The host agent: the accesses a program line stands for (R61), and one turn of the host,
which issues one access (R42). -/

namespace Sys2Proof.Machine

/-- The writes of `bs` at `IBUF[k..]` (R61 `LOADAT`), in ascending order. -/
def loadWrites (k : Nat) : List Byte → List HostAction
  | [] => []
  | b :: bs => .memWrite (Config.offIbuf + k) 1 b :: loadWrites (k + 1) bs

/-- `LOAD` (R61): the bytes from `IBUF[0]` on, then `ILEN <- n`. DESIGN CHOICE: R61 gives it for at most 52 bytes;
for more, all the writes are issued and `ILEN <- n` (log entry 25). -/
def loadActions (bs : List Byte) : List HostAction :=
  loadWrites 0 bs ++ [.memWrite Config.offIlen 1 (BitVec.ofNat 8 bs.length)]

/-- The accesses a line stands for (R61). -/
def lineActions : HostLine → List HostAction
  | .load bs => loadActions bs
  | .loadAt k bs => loadWrites k bs
  | .setLen n => [.memWrite Config.offIlen 1 n]
  | .op i => [.memWrite Config.offCmd 1 (encode i)]
  | .cmd v => [.memWrite Config.offCmd 1 v]
  | .wait => [.pollDone]
  | .read => [.readLen]
  | .xfer => [.readLen, .reload]
  | .waitIdle => [.pollIdle]
  | .stopOnError => [.stopOnError]

/-- The accesses a program stands for, in order. -/
def programActions (ls : List HostLine) : List HostAction := ls.flatMap lineActions

/-- The state in which the host is about to run a program (log entry 7). -/
def State.withProgram (s : State) (ls : List HostLine) : State :=
  { s with host := { s.host with todo := programActions ls } }

/-- Replace what the host has still to do. -/
def State.withTodo (s : State) (todo : List HostAction) : State :=
  { s with host := { s.host with todo := todo } }

/-- The host keeps the value a read returned. -/
def State.noteRead (s : State) (v : Byte) : State :=
  { s with host := { s.host with lastRead := v } }

/-- The host keeps the value as the status it saw (R61 `WAIT`). -/
def State.noteStatus (s : State) (v : Byte) : State :=
  { s with host := { s.host with status := v } }

/-- The host's collected result bytes become `bs` (R61 `READ`). -/
def State.withGot (s : State) (bs : List Byte) : State :=
  { s with host := { s.host with got := bs } }

/-- The host issues `MemRead(addr, 1)` and keeps the value (R32). -/
def fetchByte (addr : Nat) (s : State) : State :=
  (hostRead addr s).2.noteRead (hostRead addr s).1

/-- The host reads a bus address outside the window: the value is the platform's (R31; log entry 10). -/
def fetchOutside (addr : Nat) (s : State) : State :=
  (draw addr s).2.noteRead (draw addr s).1

/-- Read `STATUS` and keep it; go on if `ready` holds of it, else issue `again` next. -/
def pollStatus (ready : Byte → Bool) (again : HostAction) (s : State) : State :=
  let t := fetchByte Config.offStatus s
  let u := t.noteStatus t.host.lastRead
  if ready t.host.lastRead then u else u.withTodo (again :: u.host.todo)

/-- First access of `READ` (R61): `n <- MemRead(0x03, 1)`, then the `n` result bytes are due. -/
def readLength (s : State) : State :=
  let t := (fetchByte Config.offOlen s).withGot []
  t.withTodo ((List.range t.host.lastRead.toNat).map .readOut ++ t.host.todo)

/-- A later access of `READ` (R61): `MemRead(0x80 + k, 1)`. -/
def readResult (k : Nat) (s : State) : State :=
  let t := fetchByte (Config.offObuf + k) s
  t.withGot (t.host.got ++ [t.host.lastRead])

/-- One access of the host (R35, R42), `s` being the state in which it has been taken off the list. DESIGN CHOICE:
the reload of an `XFER` loads all the bytes its `READ` returned, also where they are more than the 52 of R61's
`LOAD` (log entry 25). -/
def runAction (a : HostAction) (s : State) : Host.Outcome State Fault Refusal :=
  match a with
  | .memRead addr width => if width = 1 then .next (fetchByte addr s) else .refused .wideAccess
  | .memWrite addr width v => if width = 1 then .next (hostWrite addr v s) else .refused .wideAccess
  | .busRead addr width =>
    if width = 1 then
      .next (match busOffset addr with
        | some off => fetchByte off s
        | none => fetchOutside addr s)
    else .refused .wideAccess
  | .busWrite addr width v =>
    if width = 1 then
      .next (match busOffset addr with
        | some off => hostWrite off v s
        | none => s)
    else .refused .wideAccess
  | .pollIdle => .next (pollStatus (fun v => !busyBit v) .pollIdle s)
  | .pollDone => .next (pollStatus doneBit .pollDone s)
  | .readLen => .next (readLength s)
  | .readOut k => .next (readResult k s)
  | .reload => .next (s.withTodo (loadActions s.host.got ++ s.host.todo))
  | .stopOnError => .next (if errBits s.host.status = 0 then s else s.withTodo [])

/-- One turn of the host: its next access; a host with nothing to do changes nothing (R203). -/
def hostTurn (s : State) : Host.Outcome State Fault Refusal :=
  match s.host.todo with
  | [] => .next s
  | a :: rest => runAction a (s.withTodo rest)

end Sys2Proof.Machine
end

