-- ==== Sys2Proof/Machine/Block.lean ====
section
/-! DEFINITION. The block's own step (R18 (b), R22) and the choice of the agent that moves (R22, R201). -/

namespace Sys2Proof.Machine

/-- The completion of the command in `CMD`: the operation it selects, or `ILLEGAL_OP` where it selects none
(R53, R164, U9). -/
def completeCommand (s : State) : Host.Outcome State Fault Refusal :=
  match decode s.cmd with
  | .ok i => exec i s
  | .error _ => .next (raise .illegalOp s)

/-- A turn of the block: the completion step, enabled exactly when `BUSY = 1` (R22); an idle block does
nothing on its own. -/
def blockTurn (s : State) : Host.Outcome State Fault Refusal :=
  if s.busy then completeCommand s else .next s

/-- Who moves next: as the list of turns says, and when it is used up the block if an operation is in
progress, else the host (R201: the completion step does happen; log entry 5). -/
def nextTurn (s : State) : Turn :=
  match s.turns with
  | t :: _ => t
  | [] => if s.busy then .block else .host

/-- One step of the agent that moves. -/
def takeTurn (t : Turn) (s : State) : Host.Outcome State Fault Refusal :=
  match t with
  | .host => hostTurn s
  | .block => blockTurn s
  | .reset => .next (applyReset s)

end Sys2Proof.Machine
end

