-- ==== Sys2Proof/Machine/Step.lean ====
section
/-! DEFINITION. One step of the machine, and the state in which the next step runs a given command. -/

namespace Sys2Proof.Machine

/-- One step: the agent whose turn it is moves (R22). -/
def step (s : State) : Host.Outcome State Fault Refusal := takeTurn (nextTurn s) s.popTurn

/-- The state in which the next step completes the command whose byte is `w`: the byte has been accepted
(R18 (a)) and the block moves next. Stands for a host write of `CMD` from outside (log entry 7). -/
def State.withFetchWord (s : State) (_nbits w : Nat) : State :=
  { accept (BitVec.ofNat 8 w) s with turns := .block :: s.turns }

end Sys2Proof.Machine
end

