-- ==== Sys2Proof/Machine/HostText.lean ====
section
/-! DEFINITION. The host's text layer (45_host_text_layer.md): software outside the block (R130), as pure
functions, and the host programs of R62, R140, R144 and R204. -/

namespace Sys2Proof.Machine

/-- The defaults of the `OPEN` parameters (D25). -/
def defaultParams : HostParams :=
  { lineBreaks := [['\r', '\n'], ['\n'], ['\r']]
    blankIsWhitespaceOnly := true
    trimLines := false
    whitespace := [' ', '\t', '\n', '\r', Char.ofNat 0x0C, Char.ofNat 0x0B] }

/-! ## Hexadecimal and HexColor -/

/-- The value of a hexadecimal digit (R134). -/
def hexDigit (c : Char) : Option Nat :=
  let n := c.toNat
  if 48 ≤ n ∧ n ≤ 57 then some (n - 48)
  else if 97 ≤ n ∧ n ≤ 102 then some (n - 87)
  else if 65 ≤ n ∧ n ≤ 70 then some (n - 55)
  else none

/-- The character is a hexadecimal digit. -/
def isHex (c : Char) : Bool := (hexDigit c).isSome

/-- The value `16*x + y` of a two-digit pair (R134). -/
def hexPair (x y : Char) : Option Byte :=
  match hexDigit x, hexDigit y with
  | some a, some b => some (BitVec.ofNat 8 (16 * a + b))
  | _, _ => none

/-- Construct a HexColor from a string (R131): exactly six hexadecimal digits. -/
def parseHexColor : List Char → Result TextError Color
  | [a, b, c, d, e, f] =>
    match hexPair a b, hexPair c d, hexPair e f with
    | some r, some g, some bl => .ok ⟨r, g, bl⟩
    | _, _, _ => .error .invalidFormat
  | _ => .error .invalidFormat

/-- An integer channel is in 0..255. -/
def inByteRange (x : Int) : Bool := decide (0 ≤ x) && decide (x ≤ 255)

/-- Construct a HexColor from three integer channels (R132, D29): rejected outside 0..255, never clamped. -/
def colorOfChannels (r g b : Int) : Result TextError Color :=
  if inByteRange r && inByteRange g && inByteRange b then
    .ok ⟨BitVec.ofInt 8 r, BitVec.ofInt 8 g, BitVec.ofInt 8 b⟩
  else .error .outOfRange

/-- The lowercase hexadecimal digit of a value below 16 (R133). -/
def hexChar (n : Nat) : Char := if n < 10 then Char.ofNat (48 + n) else Char.ofNat (87 + n)

/-- A byte as two lowercase digits, zero padded (R133). -/
def byteHex (b : Byte) : List Char := [hexChar (b.toNat / 16), hexChar (b.toNat % 16)]

/-- The rendering of a HexColor (R133): six lowercase digits, R, G, B. -/
def renderHexColor (c : Color) : List Char := byteHex c.r ++ byteHex c.g ++ byteHex c.b

/-! ## RGB text -/

/-- The length of the line break that stands at the head of a text, if one does (R146). -/
def breakLength (p : HostParams) (text : List Char) : Option Nat :=
  (p.lineBreaks.find? fun b => !b.isEmpty && b.isPrefixOf text).map List.length

/-- Split a text on its line breaks (R135 step 1): `skip` characters of a break are still to be passed over,
`line` holds the current line, last character first. -/
def splitFrom (p : HostParams) : Nat → List Char → List Char → List (List Char)
  | _, line, [] => [line.reverse]
  | skip + 1, line, _ :: cs => splitFrom p skip line cs
  | 0, line, c :: cs =>
    match breakLength p (c :: cs) with
    | some n => line.reverse :: splitFrom p (n - 1) [] cs
    | none => splitFrom p 0 (c :: line) cs

/-- The lines of a text (R135 step 1). -/
def splitLines (p : HostParams) (text : List Char) : List (List Char) := splitFrom p 0 [] text

/-- The character is whitespace (R146 `host.whitespace`). -/
def isSpace (p : HostParams) (c : Char) : Bool := p.whitespace.contains c

/-- The line is blank (R135 step 2, R146 `host.blank_is_whitespace_only`). DESIGN CHOICE: the whitespace of an RGB
line is the set `host.whitespace`, which R146 gives for BGR text only (log entry 20). -/
def isBlank (p : HostParams) (line : List Char) : Bool :=
  if p.blankIsWhitespaceOnly then line.all (isSpace p) else line.isEmpty

/-- Remove whitespace at both ends (R146 `host.trim_lines`). DESIGN CHOICE: `host.whitespace` is the set here too
(log entry 20). -/
def trim (p : HostParams) (line : List Char) : List Char :=
  ((line.dropWhile (isSpace p)).reverse.dropWhile (isSpace p)).reverse

/-- The color of a line, if it is valid; an invalid line is dropped (R135 step 4; R146 `host.trim_lines`). -/
def lineColor (p : HostParams) (line : List Char) : Option Color :=
  match parseHexColor (if p.trimLines then trim p line else line) with
  | .ok c => some c
  | .error _ => none

/-- The lines that are looked at: the first 16 non-blank ones, valid or not (R135 steps 2 and 3, C6). -/
def candidateLines (p : HostParams) (text : List Char) : List (List Char) :=
  ((splitLines p text).filter fun l => !isBlank p l).take Config.nCol

/-- `parseRgbText(text)` (R135, R136): drop invalid lines, then pad. It never fails. -/
def parseRgbText (p : HostParams) (text : List Char) : List Color :=
  padPalette ((candidateLines p text).filterMap (lineColor p))

/-! ## BGR text -/

/-- The bytes of a sequence of hexadecimal digit pairs; a last odd character is discarded (R137). -/
def pairBytes : List Char → List Byte
  | x :: y :: rest => (hexPair x y).getD 0 :: pairBytes rest
  | _ => []

/-- The text half of `parseBgrText` (R137, R138): strip whitespace, fail on any non-hex character, pair. -/
def bgrTextBytes (p : HostParams) (text : List Char) : Result TextError (List Byte) :=
  let stripped := text.filter fun c => !isSpace p c
  if stripped.all isHex then .ok (pairBytes stripped) else .error .invalidByteSequence

/-- `parseBgrText(text)` (R140): the text half, then `bgr_to_pal`. -/
def parseBgrText (p : HostParams) (text : List Char) : Result TextError (List Color) :=
  match bgrTextBytes p text with
  | .ok s => .ok (bgrColors s)
  | .error e => .error e

/-- `bgrBytesToRgbPalette` (R62 (b), R140): `parseBgrText` composed with hex rendering. -/
def bgrTextToHex (p : HostParams) (text : List Char) : Result TextError (List (List Char)) :=
  match parseBgrText p text with
  | .ok cs => .ok (cs.map renderHexColor)
  | .error e => .error e

/-! ## Host programs -/

/-- How an input of any length is presented (R14 (b), R140): its first 52 bytes in `IBUF`, and
`ILEN <- min(length, 255)`. -/
def presentLines (f : List Byte) : List HostLine :=
  [.load (f.take Config.bufSize), .setLen (BitVec.ofNat 8 (min f.length 255))]

/-- A transaction (R204): wait until idle, load, command, wait, check `ERR`, read. -/
def transaction (i : Instr) (f : List Byte) : List HostLine :=
  [.waitIdle] ++ presentLines f ++ [.op i, .wait, .stopOnError, .read]

/-- `rgbPaletteToBgrBytes` (R62 (a)): the single command PAL2BGR, on a loaded palette. -/
def palToBgrProgram (p : List Byte) : List HostLine := [.load p, .op .pal2bgr, .wait, .read]

/-- TPL file to BGR bytes (R62 (c)). -/
def tplToBgrProgram (f : List Byte) : List HostLine :=
  presentLines f ++ [.op .tpldec, .wait, .stopOnError, .xfer, .op .pal2bgr, .wait, .read]

/-- BGR bytes to TPL file (R62 (d)). -/
def bgrToTplProgram (s : List Byte) : List HostLine :=
  presentLines s ++ [.op .bgr2pal, .wait, .xfer, .op .tplenc, .wait, .read]

/-- `parseBgrText` on the block (R140): on a text that fails, nothing is loaded and no command issued (R138). -/
def bgrTextProgram (p : HostParams) (text : List Char) : Result TextError (List HostLine) :=
  match bgrTextBytes p text with
  | .ok s => .ok (presentLines s ++ [.op .bgr2pal, .wait, .read])
  | .error e => .error e

end Sys2Proof.Machine
end

