-- ==== Sys2Proof/Safety.lean ====
section
/-! DEFINITION. What statements about runs are said in: the read set of an operation (R23), the host's one
obligation (R193), an input presented to the block (R14), and the invariant of the block (R15, R17, R18). -/

namespace Sys2Proof.Machine

/-- The indices of `IBUF` an operation reads (R23). -/
def readSet (i : Instr) (s : State) : List Nat :=
  match i with
  | .pack => List.range 3
  | .unpack => List.range 2
  | .tpldec =>
    if s.ilen.toNat < 4 then []
    else if headerValid (s.readIn 4) ∧ Config.tplLen ≤ s.ilen.toNat then List.range 52
    else List.range 4
  | .tplenc => List.range 48
  | .pal2bgr => List.range 48
  | .bgr2pal => List.range (2 * min 16 (s.ilen.toNat / 2))

/-- The operation's result depends on `ILEN` (R23). -/
def readsIlen : Instr → Bool
  | .pack => false
  | .unpack => false
  | .tpldec => true
  | .tplenc => false
  | .pal2bgr => false
  | .bgr2pal => true

/-- The host has written `IBUF[i]` since reset. -/
def Written (s : State) (i : Nat) : Prop := (Memory.lookup s.ibuf i).isSome = true

/-- The host's obligation before a command: every `IBUF` byte the operation reads has been written (R193). -/
def InputWritten (i : Instr) (s : State) : Prop := ∀ k ∈ readSet i s, Written s k

/-- An input of any length stands presented (R14 (b)): its first 52 bytes in `IBUF`, `ILEN` its length
capped at 255. -/
def Presents (s : State) (f : List Byte) : Prop :=
  s.ilen.toNat = min f.length 255 ∧
    ∀ k, k < Config.bufSize → k < f.length → Memory.lookup s.ibuf k = f[k]?

/-- A sequence stands in `IBUF[0..]`, whatever `ILEN` says (the four operations of fixed size, R23). -/
def Holds (s : State) (p : List Byte) : Prop :=
  ∀ k, k < p.length → Memory.lookup s.ibuf k = p[k]?

/-- The values `OLEN` ever holds (R15; 0 also after reset). -/
def legalOlen (v : Byte) : Bool := [0#8, 2#8, 3#8, 32#8, 48#8, 52#8].contains v

/-- The invariant of the block: both buffers in canonical form; `STATUS` one of its six values (R17); `OLEN`
one of its values (R15); `OBUF` specified exactly at `0..OLEN-1` (R13, R197); and, unless an operation is in
progress, `OLEN = 0` exactly if the last operation ended in error or none has ended (R15, R165, R198). -/
structure BlockInv (s : State) : Prop where
  ibufWf : Memory.wf s.ibuf = true
  obufWf : Memory.wf s.obuf = true
  statusLegal : legalStatus s.status = true
  olenLegal : legalOlen s.olen = true
  obufDefined : ∀ k, (Memory.lookup s.obuf k).isSome = true ↔ k < s.olen.toNat
  olenError : s.busy = false → (s.olen = 0 ↔ s.status ≠ 0x40#8)

/-- The block's registers and buffers are the same in both states. -/
def SameBlock (s t : State) : Prop :=
  t.cmd = s.cmd ∧ t.status = s.status ∧ t.ilen = s.ilen ∧ t.olen = s.olen ∧ t.ibuf = s.ibuf ∧ t.obuf = s.obuf

/-- The host access `a` is a one-byte write of `v` that reaches window offset `addr` (R30, R33). -/
def IssuesWrite (a : HostAction) (addr : Nat) (v : Byte) : Prop :=
  a = .memWrite addr 1 v ∨ ∃ b, a = .busWrite b 1 v ∧ busOffset b = some addr

/-- Operation `i` answers a next state from `s`: `OBUF` specified exactly as the result says, `OLEN` its
length, `STATUS` idle, done and with the error's code, and everything else of the block, every byte of `IBUF`
among it, the host and the turns unchanged (R12, R13, R18 (b), R40, R165). The model's own draw counter may
move. -/
def CompletesWith (i : Instr) (s : State) (e : ErrCode) (result : List Byte) : Prop :=
  ∃ t, exec i s = .next t ∧
    (∀ k, Memory.lookup t.obuf k = result[k]?) ∧ t.olen.toNat = result.length ∧
    busyBit t.status = false ∧ doneBit t.status = true ∧ rsvBits t.status = 0 ∧ errBits t.status = e.code ∧
    t.cmd = s.cmd ∧ t.ilen = s.ilen ∧ (∀ k, Memory.lookup t.ibuf k = Memory.lookup s.ibuf k) ∧
    t.host = s.host ∧ t.turns = s.turns

/-- How many input bytes an operation of fixed size needs (R23); the two that read `ILEN` take any number. -/
def operandLen : Instr → Nat
  | .pack => 3
  | .unpack => 2
  | .tpldec => 0
  | .tplenc => 48
  | .pal2bgr => 48
  | .bgr2pal => 0

/-- The pure function an operation exposes, on an input of any length (R51, R72, R75, R90, R94, R110, R113). -/
def functionOf (i : Instr) (f : List Byte) : Result ErrCode (List Byte) :=
  match i with
  | .pack => .ok (wordBytes (pack15 ⟨f.getD 0 0, f.getD 1 0, f.getD 2 0⟩))
  | .unpack => .ok (colorBytes (unpack15 (le16 (f.getD 0 0) (f.getD 1 0))))
  | .tpldec => tplDecode f
  | .tplenc => .ok (tplEncode (f.take 48))
  | .pal2bgr => .ok (palToBgr (f.take 48))
  | .bgr2pal => .ok (bgrToPal f)

/-- The command in progress has all its input written (R193); an illegal command has none (R164). -/
def CommandReady (s : State) : Prop := ∀ i, decode s.cmd = .ok i → InputWritten i s

end Sys2Proof.Machine
end

