-- ==== Sys2Proof/Certificates/Slice0/Obligations.lean ====
section
/-! DEFINITION. The statements for the provers, from the spec's numbered rules. Numerals stand as the spec has
them. `s.ibufByte i` is the byte of `IBUF[i]` an operation reads: the byte the host wrote, or a free value
where it wrote none (log entry 1); a statement about it holds for every free value. -/

open Sys2Proof Sys2Proof.Machine

/-! ## The command byte -/

/-- R51: the six command bytes and no others select the six operations. -/
def Obligations.CommandBytesSelectTheSixOperations : Prop :=
  ∀ (b : Byte) (i : Instr), decode b = .ok i ↔
    (b = 0x01#8 ∧ i = .pack) ∨ (b = 0x02#8 ∧ i = .unpack) ∨ (b = 0x03#8 ∧ i = .tpldec) ∨
    (b = 0x04#8 ∧ i = .tplenc) ∨ (b = 0x05#8 ∧ i = .pal2bgr) ∨ (b = 0x06#8 ∧ i = .bgr2pal)

/-- R50, R51: decoding and encoding agree, in both directions. -/
def Obligations.DecodeAndEncodeAgree : Prop :=
  (∀ i : Instr, i.wf = true → decode (encode i) = .ok i) ∧
  ∀ (b : Byte) (i : Instr), decode b = .ok i → encode i = b

/-- R53, R164: each of the other 250 bytes is accepted like any command and completes with `ILLEGAL_OP`. -/
def Obligations.OtherCommandBytesEndInIllegalOp : Prop :=
  ((List.range 256).countP fun n => decodeTableWord 8 n == none) = 250 ∧
  ∀ b : Byte, (b = 0 ∨ 7 ≤ b.toNat) →
    (∀ i, decode b ≠ .ok i) ∧
    (∀ s : State, s.busy = false → (hostWrite 0x00 b s).cmd = b ∧ (hostWrite 0x00 b s).busy = true) ∧
    ∀ s : State, s.busy = true → s.cmd = b →
      ∃ t, blockTurn s = .next t ∧ busyBit t.status = false ∧ doneBit t.status = true ∧
        errBits t.status = 3 ∧ t.olen = 0 ∧ (∀ k, Memory.lookup t.obuf k = none) ∧
        t.cmd = b ∧ t.ilen = s.ilen ∧ ∀ k, Memory.lookup t.ibuf k = Memory.lookup s.ibuf k

/-! ## The step -/

/-- R18 (b), R22: when the block moves and is busy, a step is the meaning of the operation that `CMD` selects,
from the state with the turn used up; and the word placed by `withFetchWord` is what runs next (turns and
`withFetchWord` are the model's own, log entries 5 and 7). -/
def Obligations.StepRunsTheSelectedOperation : Prop :=
  (∀ (s : State) (i : Instr), s.busy = true → nextTurn s = .block → decode s.cmd = .ok i →
    step s = exec i s.popTurn) ∧
  ∀ (s : State) (i : Instr), step (s.withFetchWord 8 (encode i).toNat) = exec i (accept (encode i) s)

/-- R22: besides reset, a step changes the block only by the completion step of a busy block or by the host write
that the host's next access issues; an access that issues none changes nothing of the block. The turns, an idle
block's turn and a host with nothing to do are the model's own, and a reset leaves what `applyReset` says (log
entries 5, 14 and 19). -/
def Obligations.BlockChangesByCompletionHostWriteOrReset : Prop :=
  ∀ s t : State, step s = .next t →
    (nextTurn s = .reset ∧ t = applyReset s.popTurn) ∨
    (nextTurn s = .block ∧ s.busy = true ∧ completeCommand s.popTurn = .next t) ∨
    (nextTurn s = .block ∧ s.busy = false ∧ t = s.popTurn) ∨
    (nextTurn s = .host ∧ s.host.todo = [] ∧ t = s.popTurn) ∨
    (nextTurn s = .host ∧ ∃ a l, s.host.todo = a :: l ∧
      ((∃ addr v, IssuesWrite a addr v ∧ t = hostWrite addr v (s.popTurn.withTodo l)) ∨
      ((∀ addr v, ¬ IssuesWrite a addr v) ∧ SameBlock s t)))

/-- R7, R201: a busy block whose turn it is completes, whatever the command and the input; nothing hangs
(how turns are given is the model's choice, log entry 5). -/
def Obligations.BusyBlockCompletesInItsTurn : Prop :=
  ∀ s : State, s.busy = true → nextTurn s = .block →
    ∃ t, step s = .next t ∧ t.busy = false ∧ doneBit t.status = true ∧ t.turns = s.turns.tail

/-- A step stops only where the host issues an access that is not one byte wide, and then by that refusal
(20_memory.md section 2; refusing it is the treatment the model takes, log entry 9). -/
def Obligations.StepStopsOnlyOnAccessesNotOneByteWide : Prop :=
  ∀ s : State,
    ((∃ t, step s = .next t) ↔
      ¬ (nextTurn s = .host ∧ ∃ a rest, s.host.todo = a :: rest ∧ a.wf = false)) ∧
    ((∀ t, step s ≠ .next t) → step s = .refused .wideAccess)

/-! ## STATUS, acceptance, completion, reset -/

/-- R18: what sets and clears the status flags, that nothing else does, and that no operation reads `STATUS`,
`OLEN` or `OBUF`. -/
def Obligations.StatusChangesOnlyAtAcceptanceCompletionReset : Prop :=
  ∀ s : State,
    (∀ v, s.busy = false →
      busyBit (hostWrite 0x00 v s).status = true ∧ doneBit (hostWrite 0x00 v s).status = false ∧
      errBits (hostWrite 0x00 v s).status = 0 ∧ windowByte (hostWrite 0x00 v s) 0x03 = none ∧
      ∀ k < 52, windowByte (hostWrite 0x00 v s) (0x80 + k) = none) ∧
    (s.busy = true → ∃ (t : State) (e : ErrCode) (r : List Byte), blockTurn s = .next t ∧
      (∀ i, decode s.cmd = .ok i → CompletesWith i s e r) ∧
      (∀ d, decode s.cmd = .error d → e = .illegalOp ∧ r = []) ∧
      (∀ k < 52, windowByte t (0x80 + k) = r[k]?) ∧ windowByte t 0x03 = some t.olen ∧
      t.olen.toNat = r.length ∧ errBits t.status = e.code ∧
      busyBit t.status = false ∧ doneBit t.status = true) ∧
    (applyReset s).status = 0 ∧
    (∀ t, step s = .next t → t.status ≠ s.status →
      (nextTurn s = .reset ∧ t.status = 0) ∨
      (nextTurn s = .block ∧ s.busy = true ∧ busyBit t.status = false ∧ doneBit t.status = true) ∨
      (nextTurn s = .host ∧ s.busy = false ∧ ∃ a l v, s.host.todo = a :: l ∧ IssuesWrite a 0x00 v ∧
        t = accept v (s.popTurn.withTodo l) ∧
        busyBit t.status = true ∧ doneBit t.status = false ∧ errBits t.status = 0)) ∧
    ∀ (i : Instr) (st ol : Byte) (ob : Memory), exec i { s with status := st, olen := ol, obuf := ob } = exec i s

/-- Acceptance and completion write `STATUS` whole: 0x80, and 0x40 plus the error code (10_state.md section 4:
the reserved bits read 0 and these are its only values; log entry 17). -/
def Obligations.StatusIsWrittenWhole : Prop :=
  (∀ (s : State) (v : Byte), s.busy = false → (hostWrite 0x00 v s).status = 0x80#8) ∧
  ∀ s : State, s.busy = true → ∃ t : State, blockTurn s = .next t ∧
    t.status.toNat = 0x40 + (errBits t.status).toNat ∧ (errBits t.status).toNat ≤ 3

/-- R165: what raising an error leaves, and that an operation that ends with a nonzero `ERR` is a raise. -/
def Obligations.RaiseLeavesTheCodeAndNoResult : Prop :=
  (∀ (e : ErrCode) (s : State),
    errBits (raise e s).status = e.code ∧ busyBit (raise e s).status = false ∧
    doneBit (raise e s).status = true ∧ (raise e s).olen = 0 ∧
    (∀ k, Memory.lookup (raise e s).obuf k = none) ∧
    (raise e s).cmd = s.cmd ∧ (raise e s).ilen = s.ilen ∧ (raise e s).ibuf = s.ibuf) ∧
  ∀ (i : Instr) (s t : State), exec i s = .next t → errBits t.status ≠ 0 →
    ∃ e, t = raise e s ∧ (e = .invalidHeader ∨ e = .truncatedFile)

/-- R21, R190: after reset the registers are 0x00, every buffer byte is unspecified (it reads as nothing the
model fixes) and the block is idle. -/
def Obligations.ResetLeavesRegistersZeroAndBuffersUnspecified : Prop :=
  (∀ s : State,
    (applyReset s).cmd = 0 ∧ (applyReset s).status = 0 ∧ (applyReset s).ilen = 0 ∧ (applyReset s).olen = 0 ∧
    (applyReset s).busy = false ∧
    ∀ k < 52, windowByte (applyReset s) (0x40 + k) = none ∧ windowByte (applyReset s) (0x80 + k) = none) ∧
  State.reset.cmd = 0 ∧ State.reset.status = 0 ∧ State.reset.ilen = 0 ∧ State.reset.olen = 0 ∧
  ∀ k < 52, windowByte State.reset (0x40 + k) = none ∧ windowByte State.reset (0x80 + k) = none

/-- R191: reset while busy abandons the operation: the block is idle, `DONE` is 0, `OBUF` is unspecified, and a
turn of the block does nothing, so no completion step follows. -/
def Obligations.ResetAbandonsTheOperation : Prop :=
  ∀ (s : State) (rest : List Turn), s.busy = true → s.turns = .reset :: rest →
    ∃ t, step s = .next t ∧ t.busy = false ∧ doneBit t.status = false ∧
      (∀ k, Memory.lookup t.obuf k = none) ∧ t.turns = rest ∧ blockTurn t = .next t

/-- R40, R196: while the block is busy every host write is ignored, and no step but a reset changes what the
operation in progress reads. -/
def Obligations.HostWritesAreLostWhileBusy : Prop :=
  ∀ s : State, s.busy = true →
    (∀ addr v, hostWrite addr v s = s) ∧
    ∀ t, step s = .next t → nextTurn s ≠ .reset → t.cmd = s.cmd ∧ t.ilen = s.ilen ∧ t.ibuf = s.ibuf

/-- R15, R17, R18, R13: the invariant of the block is kept by every step, from every state that has it. -/
def Obligations.StepKeepsTheBlockInvariant : Prop :=
  ∀ s t : State, BlockInv s → step s = .next t → BlockInv t

/-- The state after reset has the invariant. -/
def Obligations.ResetHasTheBlockInvariant : Prop := BlockInv State.reset

/-- R17: a state that has the invariant is never both busy and done, reads 0 in the reserved bits and shows an
error code of at most 3, and only a done one. -/
def Obligations.LegalStatusHasExclusiveFlags : Prop :=
  ∀ s : State, BlockInv s →
    ¬ (busyBit s.status = true ∧ doneBit s.status = true) ∧ rsvBits s.status = 0 ∧
    (errBits s.status).toNat ≤ 3 ∧ (errBits s.status ≠ 0 → doneBit s.status = true)

/-! ## The register window -/

/-- R32: what a host read returns at each offset (an unspecified byte at and beyond `OLEN`), and that no read
changes the block. -/
def Obligations.HostReadFollowsTheWindowMap : Prop :=
  ∀ s : State,
    windowByte s 0x00 = some s.cmd ∧ windowByte s 0x01 = some s.status ∧ windowByte s 0x02 = some s.ilen ∧
    windowByte s 0x03 = (if s.busy then none else some s.olen) ∧
    (∀ a, 0x40 ≤ a → a ≤ 0x73 → windowByte s a = Memory.lookup s.ibuf (a - 0x40)) ∧
    (∀ a, 0x80 ≤ a → a ≤ 0xB3 →
      windowByte s a = if s.busy then none else Memory.lookup s.obuf (a - 0x80)) ∧
    (∀ a, (0x04 ≤ a ∧ a ≤ 0x3F) ∨ (0x74 ≤ a ∧ a ≤ 0x7F) ∨ (0xB4 ≤ a ∧ a ≤ 0xFF) →
      windowByte s a = some 0x00#8) ∧
    (∀ a v, windowByte s a = some v → hostRead a s = (v, s)) ∧
    (BlockInv s → s.busy = false → ∀ k, s.olen.toNat ≤ k → k < 52 → windowByte s (0x80 + k) = none) ∧
    ∀ a, SameBlock s (hostRead a s).2 ∧ (hostRead a s).2.host = s.host ∧ (hostRead a s).2.turns = s.turns

/-- R33: what a host write does at each offset of the window, busy and idle. -/
def Obligations.HostWriteFollowsTheWindowMap : Prop :=
  ∀ (s : State) (v : Byte),
    (s.busy = true → ∀ a ≤ 0xFF, hostWrite a v s = s) ∧
    (s.busy = false →
      ((hostWrite 0x00 v s).cmd = v ∧ busyBit (hostWrite 0x00 v s).status = true ∧
        doneBit (hostWrite 0x00 v s).status = false ∧ errBits (hostWrite 0x00 v s).status = 0 ∧
        { hostWrite 0x00 v s with cmd := s.cmd, status := s.status } = s) ∧
      hostWrite 0x02 v s = { s with ilen := v } ∧
      (∀ i < 52, hostWrite (0x40 + i) v s = { s with ibuf := Memory.store s.ibuf i v }) ∧
      ∀ a ≤ 0xFF, a ≠ 0x00 → a ≠ 0x02 → ¬ (0x40 ≤ a ∧ a ≤ 0x73) → hostWrite a v s = s)

/-- R12, R33, R42: an `IBUF` byte written while idle reads back, and every other offset of the window and every
other register reads as before. -/
def Obligations.IbufReadsBackWhatWasWritten : Prop :=
  ∀ (s : State) (i : Nat) (v : Byte), s.busy = false → i < 52 →
    windowByte (hostWrite (0x40 + i) v s) (0x40 + i) = some v ∧
    (∀ a, a ≠ 0x40 + i → windowByte (hostWrite (0x40 + i) v s) a = windowByte s a) ∧
    (Memory.wf s.ibuf = true → Memory.wf (hostWrite (0x40 + i) v s).ibuf = true)

/-- U1 to U4 (the model's choice among the treatments the spec allows, log entries 1 to 4): a read of an
unspecified byte returns a free value, and the next read of it draws another one. In a state with the invariant
`OBUF` is unspecified exactly at and beyond `OLEN`. -/
def Obligations.UnspecifiedReadsDrawAfresh : Prop :=
  (∀ (s : State) (a : Nat), windowByte s a = none →
    (hostRead a s).1 = Config.freeByte s.draws a ∧
    (hostRead a (hostRead a s).2).1 = Config.freeByte (s.draws + 1) a) ∧
  ∀ (s : State) (k : Nat), BlockInv s → s.busy = false → k < 52 →
    (windowByte s (0x80 + k) = none ↔ s.olen.toNat ≤ k)

/-- A bus address `BASE + off` inside the window reaches offset `off` (20_memory.md section 1). An access outside
the window, by bus address or by an offset of 256 or more, does not touch the block, and the value of an outside
read is the platform's (the model's choice, log entry 10). -/
def Obligations.BusAccessesReachTheWindow : Prop :=
  ∀ (s : State) (v : Byte),
    (∀ off < 256, runAction (.busRead (Config.base + off) 1) s = runAction (.memRead off 1) s ∧
      runAction (.busWrite (Config.base + off) 1 v) s = runAction (.memWrite off 1 v) s) ∧
    (∀ off, 256 ≤ off → hostWrite off v s = s ∧ windowByte s off = none ∧ SameBlock s (hostRead off s).2) ∧
    ∀ addr, addr < Config.base ∨ Config.base + 256 ≤ addr →
      runAction (.busWrite addr 1 v) s = .next s ∧
      ∃ t, runAction (.busRead addr 1) s = .next t ∧ SameBlock s t ∧ t.host.todo = s.host.todo

/-! ## The six operations -/

/-- R72: PACK, for every state. -/
def Obligations.PackStoresTheBgr15Word : Prop :=
  ∀ s : State,
    let w := (s.ibufByte 2).toNat / 8 * 1024 + (s.ibufByte 1).toNat / 8 * 32 + (s.ibufByte 0).toNat / 8
    decode 0x01#8 = .ok .pack ∧
    CompletesWith .pack s .ok [BitVec.ofNat 8 (w % 256), BitVec.ofNat 8 (w / 256)] ∧ w / 256 ≤ 0x7F

/-- R75: UNPACK, for every state. -/
def Obligations.UnpackStoresTheRgbTriple : Prop :=
  ∀ s : State,
    let w := (s.ibufByte 1).toNat * 256 + (s.ibufByte 0).toNat
    decode 0x02#8 = .ok .unpack ∧ CompletesWith .unpack s .ok
      [BitVec.ofNat 8 (w % 32 * 8), BitVec.ofNat 8 (w / 32 % 32 * 8), BitVec.ofNat 8 (w / 1024 % 32 * 8)]

/-- R91, R162, R163: TPLDEC, for every state: header first, length second, then the payload. -/
def Obligations.TpldecChecksHeaderThenLength : Prop :=
  ∀ s : State,
    let headerOk := 4 ≤ s.ilen.toNat ∧ s.ibufByte 0 = 0x54#8 ∧ s.ibufByte 1 = 0x50#8 ∧
      s.ibufByte 2 = 0x4C#8 ∧ s.ibufByte 3 = 0x00#8
    decode 0x03#8 = .ok .tpldec ∧
    (¬ headerOk → CompletesWith .tpldec s .invalidHeader []) ∧
    (headerOk → s.ilen.toNat < 52 → CompletesWith .tpldec s .truncatedFile []) ∧
    (headerOk → 52 ≤ s.ilen.toNat →
      CompletesWith .tpldec s .ok ((List.range 48).map fun j => s.ibufByte (4 + j)))

/-- R95: TPLENC, for every state. -/
def Obligations.TplencStoresMagicThenPalette : Prop :=
  ∀ s : State, decode 0x04#8 = .ok .tplenc ∧ CompletesWith .tplenc s .ok
    ([0x54#8, 0x50#8, 0x4C#8, 0x00#8] ++ (List.range 48).map fun j => s.ibufByte j)

/-- R111: PAL2BGR, for every state: all 16 entries, each on its own. -/
def Obligations.Pal2bgrPacksEveryEntry : Prop :=
  ∀ s : State, decode 0x05#8 = .ok .pal2bgr ∧ CompletesWith .pal2bgr s .ok ((List.range 16).flatMap fun i =>
    let w := pack15 ⟨s.ibufByte (3 * i), s.ibufByte (3 * i + 1), s.ibufByte (3 * i + 2)⟩
    [BitVec.ofNat 8 (w.toNat % 256), BitVec.ofNat 8 (w.toNat / 256)])

/-- R114: BGR2PAL, for every state and every `ILEN`: `min(16, floor(ILEN/2))` words, then black. -/
def Obligations.Bgr2palUnpacksWordsThenPads : Prop :=
  ∀ s : State, decode 0x06#8 = .ok .bgr2pal ∧ CompletesWith .bgr2pal s .ok ((List.range 16).flatMap fun i =>
    if i < min 16 (s.ilen.toNat / 2) then
      let c := unpack15 (BitVec.ofNat 16 ((s.ibufByte (2 * i + 1)).toNat * 256 + (s.ibufByte (2 * i)).toNat))
      [c.r, c.g, c.b]
    else [0, 0, 0])

/-- R174: five operations complete with `ERR = 0` whatever `IBUF` and `ILEN` hold; TPLDEC and illegal commands
are the only ones that can end otherwise. -/
def Obligations.FiveOperationsCannotFail : Prop :=
  (∀ i : Instr, i ≠ .tpldec → ∀ s : State, ∃ t, exec i s = .next t ∧ errBits t.status = 0 ∧ t.olen ≠ 0) ∧
  ∀ s t : State, s.busy = true → blockTurn s = .next t → errBits t.status ≠ 0 →
    decode s.cmd = .ok .tpldec ∨ ∃ d, decode s.cmd = .error d

/-- R12, R40, R199: no operation changes its inputs, the command, the host or the turns. -/
def Obligations.NoOperationChangesItsInputs : Prop :=
  ∀ (i : Instr) (s t : State), exec i s = .next t →
    t.cmd = s.cmd ∧ t.ilen = s.ilen ∧ (∀ k, Memory.lookup t.ibuf k = Memory.lookup s.ibuf k) ∧
    t.host = s.host ∧ t.turns = s.turns

/-! ## BGR15 arithmetic -/

/-- R70: `scale8to5` is `floor(c / 8)`, that is bits 7:3. -/
def Obligations.Scale8to5IsTheTopFiveBits : Prop :=
  ∀ c : Byte, (scale8to5 c).toNat = c.toNat / 8 ∧ scale8to5 c = c.extractLsb' 3 5 ∧ (scale8to5 c).toNat ≤ 31

/-- R73: `scale5to8` is `c * 8`, the low three bits 0, at most 248. -/
def Obligations.Scale5to8IsTimesEight : Prop :=
  ∀ c : Chan5, (scale5to8 c).toNat = c.toNat * 8 ∧ scale5to8 c = c ++ 0b000#3 ∧ (scale5to8 c).toNat ≤ 248

/-- R71: `pack15` is the sum of the three terms, that is the concatenation `{0, B[7:3], G[7:3], R[7:3]}`. -/
def Obligations.Pack15IsTheConcatenation : Prop :=
  ∀ c : Color,
    (pack15 c).toNat = c.b.toNat / 8 * 1024 + c.g.toNat / 8 * 32 + c.r.toNat / 8 ∧
    pack15 c = 0b0#1 ++ c.b.extractLsb' 3 5 ++ c.g.extractLsb' 3 5 ++ c.r.extractLsb' 3 5 ∧
    (pack15 c).toNat ≤ 32767 ∧ (pack15 c).getLsbD 15 = false

/-- R74: `unpack15` extracts the three fields on all 65536 words and ignores bit 15. -/
def Obligations.Unpack15ExtractsTheFieldsAndIgnoresBit15 : Prop :=
  ∀ w : Word16,
    (unpack15 w).r.toNat = w.toNat % 32 * 8 ∧ (unpack15 w).g.toNat = w.toNat / 32 % 32 * 8 ∧
    (unpack15 w).b.toNat = w.toNat / 1024 % 32 * 8 ∧
    (unpack15 w).r = w.extractLsb' 0 5 ++ 0b000#3 ∧ (unpack15 w).g = w.extractLsb' 5 5 ++ 0b000#3 ∧
    (unpack15 w).b = w.extractLsb' 10 5 ++ 0b000#3 ∧
    unpack15 w = unpack15 (BitVec.ofNat 16 (w.toNat % 32768))

/-- Packing then unpacking a color clears the low three bits of each channel, as functions and as the
operations PACK, then UNPACK on its two result bytes (40_bgr_codec.md section 3). -/
def Obligations.PackThenUnpackClearsLowBits : Prop :=
  (∀ c : Color, unpack15 (pack15 c) = ⟨c.r &&& 0xF8#8, c.g &&& 0xF8#8, c.b &&& 0xF8#8⟩) ∧
  (∀ c : Color, c.r.toNat % 8 = 0 → c.g.toNat % 8 = 0 → c.b.toNat % 8 = 0 → unpack15 (pack15 c) = c) ∧
  ∀ s t u : State, exec .pack s = .next t →
    (∀ k < 2, Memory.lookup u.ibuf k = Memory.lookup t.obuf k) →
    CompletesWith .unpack u .ok [s.ibufByte 0 &&& 0xF8#8, s.ibufByte 1 &&& 0xF8#8, s.ibufByte 2 &&& 0xF8#8]

/-- Unpacking then packing a word clears bit 15 and changes nothing else, so `unpack15` is injective on
0..32767 (40_bgr_codec.md section 3). -/
def Obligations.UnpackThenPackClearsBit15 : Prop :=
  (∀ w : Word16, (pack15 (unpack15 w)).toNat = w.toNat % 32768) ∧
  (∀ v w : Word16, v.toNat < 32768 → w.toNat < 32768 → unpack15 v = unpack15 w → v = w) ∧
  ∀ s t u : State, exec .unpack s = .next t →
    (∀ k < 3, Memory.lookup u.ibuf k = Memory.lookup t.obuf k) →
    CompletesWith .pack u .ok [s.ibufByte 0, s.ibufByte 1 &&& 0x7F#8]

/-- R36: a Bgr15 word in a buffer is little-endian, and assembly inverts serialization both ways. -/
def Obligations.WordsAreLittleEndian : Prop :=
  (∀ lo hi : Byte, (le16 lo hi).toNat = hi.toNat * 256 + lo.toNat ∧ wordBytes (le16 lo hi) = [lo, hi]) ∧
  ∀ w : Word16, le16 (loByte w) (hiByte w) = w ∧
    wordBytes w = [BitVec.ofNat 8 (w.toNat % 256), BitVec.ofNat 8 (w.toNat / 256)]

/-! ## The TPL codec -/

/-- R92: the magic validator, exact and bytewise, on a byte sequence and on the file bytes in `IBUF`. -/
def Obligations.HeaderIsValidExactlyOnTheMagic : Prop :=
  (∀ bytes : List Byte, headerValid bytes = true ↔
    4 ≤ bytes.length ∧ bytes[0]? = some 0x54#8 ∧ bytes[1]? = some 0x50#8 ∧ bytes[2]? = some 0x4C#8 ∧
      bytes[3]? = some 0x00#8) ∧
  ∀ s : State, headerValid (s.readIn s.fileLen) = true ↔
    4 ≤ s.ilen.toNat ∧ s.ibufByte 0 = 0x54#8 ∧ s.ibufByte 1 = 0x50#8 ∧ s.ibufByte 2 = 0x4C#8 ∧
      s.ibufByte 3 = 0x00#8

/-- R90, R93: the three classes of input, complete and exclusive, and what decoding gives in each. -/
def Obligations.TplDecodeHasThreeClasses : Prop :=
  ∀ bytes : List Byte,
    (tplDecode bytes = .error .invalidHeader ↔ headerValid bytes = false) ∧
    (tplDecode bytes = .error .truncatedFile ↔ headerValid bytes = true ∧ bytes.length < 52) ∧
    (∀ p, tplDecode bytes = .ok p ↔
      headerValid bytes = true ∧ 52 ≤ bytes.length ∧ p.length = 48 ∧ ∀ j < 48, p[j]? = bytes[4 + j]?) ∧
    tplDecode bytes ≠ .error .ok ∧ tplDecode bytes ≠ .error .illegalOp

/-- Encode then decode is the identity, as functions and as the operations TPLENC, transfer, TPLDEC
(41_tpl_codec.md section 3). -/
def Obligations.TplencThenTpldecIsTheIdentity : Prop :=
  (∀ p : List Byte, p.length = 48 → tplDecode (tplEncode p) = .ok p) ∧
  ∀ s t u : State, exec .tplenc s = .next t → u.ilen = t.olen →
    (∀ k < 52, Memory.lookup u.ibuf k = Memory.lookup t.obuf k) →
    CompletesWith .tpldec u .ok ((List.range 48).map fun j => s.ibufByte j)

/-- Decode then encode is the identity on the first 52 bytes (41_tpl_codec.md section 3). -/
def Obligations.TplDecodeThenEncodeKeepsTheFirst52Bytes : Prop :=
  ∀ f p : List Byte, tplDecode f = .ok p → tplEncode p = f.take 52 ∧ (f.length = 52 → tplEncode p = f)

/-- R94: encoding a palette of 48 bytes gives 52 bytes: the magic, then the palette's bytes in order. -/
def Obligations.TplEncodeLaysOutTheFile : Prop :=
  ∀ p : List Byte, p.length = 48 →
    (tplEncode p).length = 52 ∧ (tplEncode p).take 4 = [0x54#8, 0x50#8, 0x4C#8, 0x00#8] ∧
    ∀ j < 48, (tplEncode p)[4 + j]? = p[j]?

/-! ## Palette conversions -/

/-- R110: `pal_to_bgr` by index. -/
def Obligations.PalToBgrByIndex : Prop :=
  ∀ p : List Byte, p.length = 48 → (palToBgr p).length = 32 ∧
    ∀ i < 16, ∀ r g b, p[3 * i]? = some r → p[3 * i + 1]? = some g → p[3 * i + 2]? = some b →
      (palToBgr p)[2 * i]? = some (loByte (pack15 ⟨r, g, b⟩)) ∧
      (palToBgr p)[2 * i + 1]? = some (hiByte (pack15 ⟨r, g, b⟩))

/-- R112: word assembly by index. -/
def Obligations.WordAssemblyByIndex : Prop :=
  ∀ s : List Byte, (wordsOf s).length = s.length / 2 ∧
    ∀ i lo hi, s[2 * i]? = some lo → s[2 * i + 1]? = some hi → (wordsOf s)[i]? = some (le16 lo hi)

/-- R113: `bgr_to_pal` by index: decoded entries, then black, 16 in all. -/
def Obligations.BgrToPalByIndex : Prop :=
  ∀ s : List Byte, (bgrToPal s).length = 48 ∧
    (∀ i < min 16 (s.length / 2), ∀ w, (wordsOf s)[i]? = some w →
      (bgrToPal s)[3 * i]? = some (unpack15 w).r ∧ (bgrToPal s)[3 * i + 1]? = some (unpack15 w).g ∧
      (bgrToPal s)[3 * i + 2]? = some (unpack15 w).b) ∧
    ∀ i, min 16 (s.length / 2) ≤ i → i < 16 →
      (bgrToPal s)[3 * i]? = some 0 ∧ (bgrToPal s)[3 * i + 1]? = some 0 ∧ (bgrToPal s)[3 * i + 2]? = some 0

/-- R115, R116: the stream is truncated to 16 words, missing entries are black and stand after the decoded
ones, an unpaired last byte is discarded, and an empty stream is 16 black entries. -/
def Obligations.StreamsAreTruncatedAndOddBytesDiscarded : Prop :=
  (∀ s : List Byte, bgrToPal s = bgrToPal (s.take 32)) ∧
  (∀ s : List Byte, s.length / 2 ≤ 16 → bgrToPal s =
    paletteBytes ((wordsOf s).map unpack15) ++ List.replicate (48 - 3 * (s.length / 2)) 0) ∧
  (∀ (s : List Byte) (b : Byte), s.length % 2 = 0 → bgrToPal (s ++ [b]) = bgrToPal s) ∧
  bgrToPal [] = List.replicate 48 0

/-- The two conversions compose to quantization and, on 32 bytes, to the identity up to bit 15 of each word
(42_palette_conversion.md section 3). -/
def Obligations.PaletteConversionsCompose : Prop :=
  (∀ p : List Byte, p.length = 48 → bgrToPal (palToBgr p) = p.map fun b => b &&& 0xF8#8) ∧
  ∀ s : List Byte, s.length = 32 →
    palToBgr (bgrToPal s) = s.zipIdx.map fun (b, k) => if k % 2 = 1 then b &&& 0x7F#8 else b

/-- Each entry is converted on its own: an output entry depends on the same entry of the input only
(42_palette_conversion.md section 3). -/
def Obligations.EntriesAreConvertedOnTheirOwn : Prop :=
  (∀ p q : List Byte, p.length = 48 → q.length = 48 → ∀ i < 16,
    (∀ j < 3, p[3 * i + j]? = q[3 * i + j]?) → ∀ j < 2, (palToBgr p)[2 * i + j]? = (palToBgr q)[2 * i + j]?) ∧
  ∀ s r : List Byte, ∀ i < 16, (i < s.length / 2 ↔ i < r.length / 2) →
    (∀ j < 2, s[2 * i + j]? = r[2 * i + j]?) → ∀ j < 3, (bgrToPal s)[3 * i + j]? = (bgrToPal r)[3 * i + j]?

/-! ## Headline results -/

/-- R14, R72, R75, R90, R94, R110, R113: with an input of any length presented as R14 says, every operation
delivers exactly its pure function of the whole input: the 52-byte buffer and the capped length are invisible. -/
def Obligations.OperationsImplementTheirFunctions : Prop :=
  ∀ (i : Instr) (f : List Byte) (s : State), operandLen i ≤ f.length → Presents s f →
    match functionOf i f with
    | .ok r => CompletesWith i s .ok r
    | .error e => e ≠ .ok ∧ CompletesWith i s e []

/-- R4, R20, R23: the result of an operation is a function of the command, of `ILEN` if it reads it, and of the
bytes of its read set, and of nothing else, whatever ran before. -/
def Obligations.ResultDependsOnTheRequestOnly : Prop :=
  ∀ (i : Instr) (s t : State),
    (∀ k ∈ readSet i s, s.ibufByte k = t.ibufByte k) → (readsIlen i = true → s.ilen = t.ilen) →
    ∃ u v, exec i s = .next u ∧ exec i t = .next v ∧ u.obuf = v.obuf ∧ u.olen = v.olen ∧ u.status = v.status

/-- R40, R42, R43, R196, R201: however many host accesses fall between acceptance and completion, the
operation whose input was written completes with the result it would have had at once, and `CMD`, `ILEN` and
`IBUF` are as at acceptance (the turns are the model's way to say that completion may fall anywhere, log entry
5). -/
def Obligations.ResultIsIndependentOfTheCompletionTime : Prop :=
  ∀ (s : State) (n : Nat) (rest : List Turn),
    s.busy = true → CommandReady s → s.turns = List.replicate n .host ++ .block :: rest →
    (s.host.todo.all HostAction.wf = true) →
    ∃ u v, Host.Core.run Sys2Proof.core (n + 1) s = .next u ∧ blockTurn s = .next v ∧
      u.obuf = v.obuf ∧ u.olen = v.olen ∧ u.status = v.status ∧
      u.cmd = s.cmd ∧ u.ilen = s.ilen ∧ u.ibuf = s.ibuf ∧ u.turns = rest

/-- R204: a transaction (wait until idle, present the input, command, wait, check `ERR`, read), run from any
state of the block, busy or idle, with no turns prescribed, ends idle and gives the host the value of the
operation's pure function, or its error code and no new result bytes (the order of turns where none is
prescribed is the model's choice, log entry 5). -/
def Obligations.TransactionCallsTheFunction : Prop :=
  ∀ (i : Instr) (f : List Byte) (s : State), operandLen i ≤ f.length → s.turns = [] →
    s.host.todo = programActions (transaction i f) →
    ∃ n t, Host.Core.run Sys2Proof.core n s = .next t ∧ t.host.todo = [] ∧ t.busy = false ∧ t.cmd = encode i ∧
      match functionOf i f with
      | .ok r => errBits t.host.status = 0 ∧ t.host.got = r
      | .error e => errBits t.host.status = e.code ∧ t.host.got = s.host.got

/-! ## Lines of a host program -/

/-- R61 `LOAD`: from an idle block, `n + 1` steps store the bytes from `IBUF[0]` on and set `ILEN`, and touch no
other byte of `IBUF`, no other register and not `OBUF` (the order of turns where none is prescribed is the
model's choice, log entry 5). -/
def Obligations.LoadLineStoresItsBytes : Prop :=
  ∀ (s : State) (bs : List Byte) (rest : List HostAction), s.busy = false → s.turns = [] →
    (HostLine.load bs).wf = true → s.host.todo = lineActions (.load bs) ++ rest →
    ∃ t, Host.Core.run Sys2Proof.core (bs.length + 1) s = .next t ∧ t.host.todo = rest ∧
      t.ilen.toNat = bs.length ∧ (∀ k < bs.length, Memory.lookup t.ibuf k = bs[k]?) ∧
      (∀ k, bs.length ≤ k → Memory.lookup t.ibuf k = Memory.lookup s.ibuf k) ∧
      t.cmd = s.cmd ∧ t.status = s.status ∧ t.olen = s.olen ∧ t.obuf = s.obuf

/-- R61 `READ`: from an idle block with the invariant, `OLEN + 1` steps yield the result bytes and change
nothing of the block (the order of turns where none is prescribed is the model's choice, log entry 5). -/
def Obligations.ReadLineYieldsTheResult : Prop :=
  ∀ (s : State) (rest : List HostAction), BlockInv s → s.busy = false → s.turns = [] →
    s.host.todo = lineActions .read ++ rest →
    ∃ t, Host.Core.run Sys2Proof.core (s.olen.toNat + 1) s = .next t ∧ t.host.todo = rest ∧ SameBlock s t ∧
      t.host.got.length = s.olen.toNat ∧ ∀ k < s.olen.toNat, t.host.got[k]? = Memory.lookup s.obuf k

/-- R61 `WAIT`, R201: after a command, with no turns prescribed, two steps (the completion and one poll) end
the wait with the completed status (the order of turns where none is prescribed is the model's choice, log
entry 5). -/
def Obligations.WaitLineReturnsTheCompletedStatus : Prop :=
  ∀ (s : State) (rest : List HostAction), s.busy = true → s.turns = [] → s.host.todo = lineActions .wait ++ rest →
    ∃ t, Host.Core.run Sys2Proof.core 2 s = .next t ∧ t.host.todo = rest ∧ t.host.status = t.status ∧
      doneBit t.status = true ∧ blockTurn s = .next { t with host := s.host }

/-- R61 `XFER`: from an idle block with the invariant, `2 * OLEN + 3` steps make the result the next input:
`IBUF` holds the result bytes and `ILEN` is `OLEN` (the order of turns where none is prescribed, and a step of
its own for the reload, are the model's choice, log entry 5). -/
def Obligations.XferLineMovesTheResultToTheInput : Prop :=
  ∀ (s : State) (rest : List HostAction), BlockInv s → s.busy = false → s.turns = [] →
    s.host.todo = lineActions .xfer ++ rest →
    ∃ t, Host.Core.run Sys2Proof.core (2 * s.olen.toNat + 3) s = .next t ∧ t.host.todo = rest ∧
      t.ilen = s.olen ∧ (∀ k < s.olen.toNat, Memory.lookup t.ibuf k = Memory.lookup s.obuf k) ∧
      (∀ k, s.olen.toNat ≤ k → Memory.lookup t.ibuf k = Memory.lookup s.ibuf k) ∧
      t.obuf = s.obuf ∧ t.olen = s.olen ∧ t.cmd = s.cmd ∧ t.status = s.status

/-! ## The host's text layer -/

/-- R131 (digits as R134 has them): a string is a HexColor exactly if it is six hexadecimal digits; its channels
are the three two-digit numbers, and any other string fails with `InvalidFormat`. -/
def Obligations.HexColorIsExactlySixDigits : Prop :=
  (∀ (t : List Char) (c : Color), parseHexColor t = .ok c ↔
    ∃ a b d e f g x₀ x₁ x₂ x₃ x₄ x₅, t = [a, b, d, e, f, g] ∧
      hexDigit a = some x₀ ∧ hexDigit b = some x₁ ∧ hexDigit d = some x₂ ∧ hexDigit e = some x₃ ∧
      hexDigit f = some x₄ ∧ hexDigit g = some x₅ ∧
      c.r.toNat = 16 * x₀ + x₁ ∧ c.g.toNat = 16 * x₂ + x₃ ∧ c.b.toNat = 16 * x₄ + x₅) ∧
  (∀ (ch : Char) (x : Nat), hexDigit ch = some x ↔
    ('0'.toNat ≤ ch.toNat ∧ ch.toNat ≤ '9'.toNat ∧ x = ch.toNat - '0'.toNat) ∨
    ('a'.toNat ≤ ch.toNat ∧ ch.toNat ≤ 'f'.toNat ∧ x = ch.toNat - 'a'.toNat + 10) ∨
    ('A'.toNat ≤ ch.toNat ∧ ch.toNat ≤ 'F'.toNat ∧ x = ch.toNat - 'A'.toNat + 10)) ∧
  ∀ t : List Char, (∀ c, parseHexColor t ≠ .ok c) → parseHexColor t = .error .invalidFormat

/-- A rendered HexColor is six lowercase digits and parses back to the color (45_host_text_layer.md section 1). -/
def Obligations.RenderedHexColorParsesBack : Prop :=
  ∀ c : Color, (renderHexColor c).length = 6 ∧
    (∀ ch ∈ renderHexColor c,
      ch ∈ ['0', '1', '2', '3', '4', '5', '6', '7', '8', '9', 'a', 'b', 'c', 'd', 'e', 'f']) ∧
    parseHexColor (renderHexColor c) = .ok c

/-- R132: integer channels outside 0..255 are rejected with `OutOfRange` and never clamped. -/
def Obligations.IntegerChannelsAreRejectedNotClamped : Prop :=
  ∀ r g b : Int,
    ((0 ≤ r ∧ r ≤ 255 ∧ 0 ≤ g ∧ g ≤ 255 ∧ 0 ≤ b ∧ b ≤ 255) →
      ∃ c, colorOfChannels r g b = .ok c ∧ (c.r.toNat : Int) = r ∧ (c.g.toNat : Int) = g ∧ (c.b.toNat : Int) = b) ∧
    (¬ (0 ≤ r ∧ r ≤ 255 ∧ 0 ≤ g ∧ g ≤ 255 ∧ 0 ≤ b ∧ b ≤ 255) → colorOfChannels r g b = .error .outOfRange)

/-- R135, R136, R147: a text is split on line breaks; of its non-blank lines the first 16 are looked at, valid or
not; those that are a HexColor give the first entries, in order, and black the others, 16 in all. How the `OPEN`
parameters settle line breaks, blank lines and trimming is log entry 20. -/
def Obligations.RgbTextGivesValidLinesThenBlack : Prop :=
  ∀ (p : HostParams) (text : List Char),
    (text = [] → splitLines p text = [[]]) ∧
    (∀ b, p.lineBreaks.find? (fun b => !b.isEmpty && b.isPrefixOf text) = some b →
      splitLines p text = [] :: splitLines p (text.drop b.length)) ∧
    (∀ c cs, text = c :: cs → p.lineBreaks.find? (fun b => !b.isEmpty && b.isPrefixOf text) = none →
      ∃ l ls, splitLines p cs = l :: ls ∧ splitLines p text = (c :: l) :: ls) ∧
    (∀ l, isBlank p l = true ↔
      if p.blankIsWhitespaceOnly then ∀ ch ∈ l, ch ∈ p.whitespace else l = []) ∧
    (∀ l, ∃ a b, l = a ++ trim p l ++ b ∧ (∀ ch ∈ a ++ b, ch ∈ p.whitespace) ∧
      (∀ ch, (trim p l).head? = some ch → ch ∉ p.whitespace) ∧
      ∀ ch, (trim p l).getLast? = some ch → ch ∉ p.whitespace) ∧
    (parseRgbText p text).length = 16 ∧
    let lines := ((splitLines p text).filter fun l => !isBlank p l).take 16
    let colors := lines.filterMap fun l =>
      match parseHexColor (if p.trimLines then trim p l else l) with
      | .ok c => some c
      | .error _ => none
    ∀ k < 16, (parseRgbText p text)[k]? = some (colors[k]?.getD ⟨0, 0, 0⟩)

/-- R137 (its steps; for its example see log entry 24), R138, R140, R147: BGR text fails exactly if a character
that is neither whitespace nor a hexadecimal digit stands anywhere in it, and then no program is run on the block.
Otherwise it succeeds: character pairs give bytes, a last odd one discarded, and the palette is `bgr_to_pal` of
them, 16 entries, by the program of R140. -/
def Obligations.BgrTextFailsExactlyOnNonHexCharacters : Prop :=
  ∀ (p : HostParams) (text : List Char),
    ((∃ ch ∈ text, isSpace p ch = false ∧ hexDigit ch = none) →
      bgrTextBytes p text = .error .invalidByteSequence ∧ parseBgrText p text = .error .invalidByteSequence ∧
      bgrTextProgram p text = .error .invalidByteSequence) ∧
    ((∀ ch ∈ text, isSpace p ch = true ∨ ∃ x, hexDigit ch = some x) →
      ∃ s cs, bgrTextBytes p text = .ok s ∧ parseBgrText p text = .ok cs ∧
        bgrTextProgram p text = .ok (presentLines s ++ [.op .bgr2pal, .wait, .read]) ∧
        cs.length = 16 ∧ paletteBytes cs = bgrToPal s ∧
        s.length = (text.filter fun ch => !isSpace p ch).length / 2 ∧
        ∀ j a b x y, (text.filter fun ch => !isSpace p ch)[2 * j]? = some a →
          (text.filter fun ch => !isSpace p ch)[2 * j + 1]? = some b →
          hexDigit a = some x → hexDigit b = some y → s[j]? = some (BitVec.ofNat 8 (16 * x + y)))
end

