-- ==== Sys2Proof/Laws/Memory.lean ====
section
/-! SUPPORT. The laws of buffers: read after write, and every operation keeps the canonical form. -/

namespace Sys2Proof.Machine

@[simp] theorem lookup_nil (i : Nat) : Memory.lookup [] i = none := rfl

@[simp] theorem lookup_cons (a : Nat) (b : Byte) (m : Memory) (i : Nat) :
    Memory.lookup ((a, b) :: m) i = if a = i then some b else Memory.lookup m i := rfl

/-- Below its first index a buffer lists nothing. -/
theorem lookup_of_wfFrom {m : Memory} {lo i : Nat} (h : Memory.wfFrom lo m = true) (hi : i < lo) :
    Memory.lookup m i = none := by
  induction m generalizing lo with
  | nil => rfl
  | cons x m ih =>
    obtain ⟨a, b⟩ := x
    simp only [Memory.wfFrom, Bool.and_eq_true, decide_eq_true_eq] at h
    rw [lookup_cons, if_neg (by omega), ih h.2 (by omega)]

/-- A canonical buffer lists nothing at 52 or above. -/
theorem lookup_of_wf_ge {m : Memory} {lo i : Nat} (h : Memory.wfFrom lo m = true) (hi : Config.bufSize ≤ i) :
    Memory.lookup m i = none := by
  induction m generalizing lo with
  | nil => rfl
  | cons x m ih =>
    obtain ⟨a, b⟩ := x
    simp only [Memory.wfFrom, Bool.and_eq_true, decide_eq_true_eq] at h
    rw [lookup_cons, if_neg (by omega), ih h.2]

/-- Read after write, same index. -/
theorem lookup_store_same (m : Memory) (i : Nat) (b : Byte) :
    Memory.lookup (Memory.store m i b) i = some b := by
  induction m with
  | nil => simp [Memory.store]
  | cons x m ih =>
    obtain ⟨a, c⟩ := x
    unfold Memory.store
    split
    · simp
    · split
      · simp
      · rename_i h; simp [Ne.symm h, ih]

/-- Read after write, another index. -/
theorem lookup_store_other (m : Memory) {i j : Nat} (b : Byte) (hij : i ≠ j) :
    Memory.lookup (Memory.store m i b) j = Memory.lookup m j := by
  induction m with
  | nil => simp [Memory.store, hij]
  | cons x m ih =>
    obtain ⟨a, c⟩ := x
    unfold Memory.store
    split
    · simp [hij]
    · split
      · rename_i h; subst h; simp [hij]
      · simp [ih]

theorem wfFrom_store {m : Memory} {lo i : Nat} {b : Byte} (h : Memory.wfFrom lo m = true) (hlo : lo ≤ i)
    (hi : i < Config.bufSize) : Memory.wfFrom lo (Memory.store m i b) = true := by
  induction m generalizing lo with
  | nil => simp [Memory.store, Memory.wfFrom, hlo, hi]
  | cons x m ih =>
    obtain ⟨a, c⟩ := x
    simp only [Memory.wfFrom, Bool.and_eq_true, decide_eq_true_eq] at h
    unfold Memory.store
    split
    · rename_i ha; simp [Memory.wfFrom, hlo, hi, h.1.2, h.2]; omega
    · split
      · rename_i ha; subst ha; simp [Memory.wfFrom, h]
      · simp only [Memory.wfFrom, Bool.and_eq_true, decide_eq_true_eq]
        exact ⟨h.1, ih h.2 (by omega)⟩

/-- A write inside the buffer keeps the canonical form. -/
theorem wf_store {m : Memory} {i : Nat} {b : Byte} (h : Memory.wf m = true) (hi : i < Config.bufSize) :
    Memory.wf (Memory.store m i b) = true := wfFrom_store h (Nat.zero_le _) hi

theorem wfFrom_ofBytesFrom (k : Nat) (bs : List Byte) (h : k + bs.length ≤ Config.bufSize) :
    Memory.wfFrom k (Memory.ofBytesFrom k bs) = true := by
  induction bs generalizing k with
  | nil => rfl
  | cons b bs ih =>
    simp only [List.length_cons] at h
    simp only [Memory.ofBytesFrom, Memory.wfFrom, Bool.and_eq_true, decide_eq_true_eq]
    exact ⟨⟨le_rfl, by omega⟩, ih (k + 1) (by omega)⟩

/-- The buffer of a result of at most 52 bytes is in canonical form. -/
theorem wf_ofBytes (bs : List Byte) (h : bs.length ≤ Config.bufSize) : Memory.wf (Memory.ofBytes bs) = true :=
  wfFrom_ofBytesFrom 0 bs (by omega)

theorem lookup_ofBytesFrom (k : Nat) (bs : List Byte) (i : Nat) :
    Memory.lookup (Memory.ofBytesFrom k bs) (k + i) = bs[i]? := by
  induction bs generalizing k i with
  | nil => rfl
  | cons b bs ih =>
    cases i with
    | zero => simp [Memory.ofBytesFrom]
    | succ i =>
      rw [Memory.ofBytesFrom, lookup_cons, if_neg (by omega), show k + (i + 1) = k + 1 + i by omega, ih]
      rfl

/-- The buffer of a result specifies exactly the result's bytes (R13). -/
@[simp] theorem lookup_ofBytes (bs : List Byte) (i : Nat) : Memory.lookup (Memory.ofBytes bs) i = bs[i]? := by
  have h := lookup_ofBytesFrom 0 bs i
  rwa [Nat.zero_add] at h

/-- The smallest index of a canonical buffer's list reads as listed; two canonical buffers that read the
same everywhere are equal. -/
theorem wfFrom_ext {m n : Memory} {lo : Nat} (hm : Memory.wfFrom lo m = true) (hn : Memory.wfFrom lo n = true)
    (h : ∀ i, Memory.lookup m i = Memory.lookup n i) : m = n := by
  induction m generalizing n lo with
  | nil =>
    cases n with
    | nil => rfl
    | cons y n => obtain ⟨a, b⟩ := y; simpa using h a
  | cons x m ih =>
    obtain ⟨a, b⟩ := x
    cases n with
    | nil => simpa using h a
    | cons y n =>
      obtain ⟨c, d⟩ := y
      simp only [Memory.wfFrom, Bool.and_eq_true, decide_eq_true_eq] at hm hn
      have hac : a = c := by
        rcases Nat.lt_trichotomy a c with hlt | heq | hgt
        · have h1 := h a
          simp [show c ≠ a by omega, lookup_of_wfFrom hn.2 (show a < c + 1 by omega)] at h1
        · exact heq
        · have h1 := h c
          simp [show a ≠ c by omega, lookup_of_wfFrom hm.2 (show c < a + 1 by omega)] at h1
      subst hac
      have hbd : b = d := by simpa using h a
      subst hbd
      refine congrArg _ (ih hm.2 hn.2 fun i => ?_)
      by_cases hi : a = i
      · subst hi
        rw [lookup_of_wfFrom hm.2 (by omega), lookup_of_wfFrom hn.2 (by omega)]
      · simpa [hi] using h i

/-- Canonical buffers that read the same everywhere are the same data. -/
theorem wf_ext {m n : Memory} (hm : Memory.wf m = true) (hn : Memory.wf n = true)
    (h : ∀ i, Memory.lookup m i = Memory.lookup n i) : m = n := wfFrom_ext hm hn h

end Sys2Proof.Machine
end

