-- ==== Sys2Proof/Laws/Operands.lean ====
section
/-! SUPPORT. The laws of operands and of the pure functions: lengths, and what a read yields. -/

namespace Sys2Proof.Machine

@[simp] theorem readIn_length (s : State) (n : Nat) : (s.readIn n).length = n := by simp [State.readIn]

theorem readIn_getElem? (s : State) {n k : Nat} (h : k < n) : (s.readIn n)[k]? = some (s.ibufByte k) := by
  simp [State.readIn, h]

theorem ibufByte_of_lookup {s : State} {i : Nat} {b : Byte} (h : Memory.lookup s.ibuf i = some b) :
    s.ibufByte i = b := by simp [State.ibufByte, h]

@[simp] theorem wordBytes_length (w : Word16) : (wordBytes w).length = 2 := rfl
@[simp] theorem colorBytes_length (c : Color) : (colorBytes c).length = 3 := rfl

theorem colorsOf_length : ∀ bs : List Byte, (colorsOf bs).length = bs.length / 3
  | [] => rfl
  | [_] => by simp [colorsOf]
  | [_, _] => by simp [colorsOf]
  | _ :: _ :: _ :: rest => by simp only [colorsOf, List.length_cons, colorsOf_length rest]; omega

theorem wordsOf_length : ∀ bs : List Byte, (wordsOf bs).length = bs.length / 2
  | [] => rfl
  | [_] => by simp [wordsOf]
  | _ :: _ :: rest => by simp only [wordsOf, List.length_cons, wordsOf_length rest]; omega

theorem paletteBytes_length (cs : List Color) : (paletteBytes cs).length = 3 * cs.length := by
  induction cs with
  | nil => rfl
  | cons c cs ih =>
    rw [paletteBytes, List.flatMap_cons, List.length_append, colorBytes_length, List.length_cons]
    rw [paletteBytes] at ih
    omega

theorem padPalette_length {cs : List Color} (h : cs.length ≤ Config.nCol) :
    (padPalette cs).length = Config.nCol := by
  simp only [padPalette, List.length_append, List.length_replicate]; omega

theorem palToBgr_length (p : List Byte) : (palToBgr p).length = 2 * (p.length / 3) := by
  rw [← colorsOf_length, palToBgr]
  induction colorsOf p with
  | nil => rfl
  | cons c cs ih => simp only [List.flatMap_cons, List.length_append, wordBytes_length, List.length_cons, ih]; omega

theorem bgrColors_length (bs : List Byte) : (bgrColors bs).length = Config.nCol :=
  padPalette_length (by simp)

theorem bgrToPal_length (bs : List Byte) : (bgrToPal bs).length = Config.palBytes := by
  rw [bgrToPal, paletteBytes_length, bgrColors_length]; rfl

theorem tplEncode_length (p : List Byte) : (tplEncode p).length = 4 + p.length := by
  simp only [tplEncode, List.length_append]; rfl

/-- The three outcomes of `tpl_decode` (R90). -/
theorem tplDecode_cases (bs : List Byte) :
    (headerValid bs = false ∧ tplDecode bs = .error .invalidHeader) ∨
    (headerValid bs = true ∧ bs.length < 52 ∧ tplDecode bs = .error .truncatedFile) ∨
    (headerValid bs = true ∧ 52 ≤ bs.length ∧ tplDecode bs = .ok ((bs.drop 4).take 48)) := by
  unfold tplDecode
  cases h : headerValid bs
  · exact .inl ⟨rfl, rfl⟩
  · by_cases hl : bs.length < 52
    · exact .inr (.inl ⟨rfl, hl, by simp [Config.tplLen, hl]⟩)
    · exact .inr (.inr ⟨rfl, by omega, by simp [Config.tplLen, Config.palBytes, hl]⟩)

theorem tplDecode_ok_length {bs p : List Byte} (h : tplDecode bs = .ok p) : p.length = 48 := by
  obtain ⟨-, h'⟩ | ⟨-, -, h'⟩ | ⟨-, hl, h'⟩ := tplDecode_cases bs
  · simp [h'] at h
  · simp [h'] at h
  · rw [h'] at h; injection h with h; subst h; simp; omega

theorem tplDecode_error_ne_ok {bs : List Byte} {e : ErrCode} (h : tplDecode bs = .error e) : e ≠ .ok := by
  obtain ⟨-, h'⟩ | ⟨-, -, h'⟩ | ⟨-, -, h'⟩ := tplDecode_cases bs <;> rw [h'] at h <;> simp at h <;>
    subst h <;> simp

end Sys2Proof.Machine
end

