-- ==== Sys2Proof/Laws/State.lean ====
section
/-! SUPPORT. One lemma per field per update of the state, so that no proof unfolds a record update. -/

namespace Sys2Proof.Machine

/-! ### complete -/

@[simp] theorem complete_cmd (e : ErrCode) (bs : List Byte) (s : State) : (complete e bs s).cmd = s.cmd := rfl
@[simp] theorem complete_status (e : ErrCode) (bs : List Byte) (s : State) :
    (complete e bs s).status = doneStatus e := rfl
@[simp] theorem complete_ilen (e : ErrCode) (bs : List Byte) (s : State) :
    (complete e bs s).ilen = s.ilen := rfl
@[simp] theorem complete_olen (e : ErrCode) (bs : List Byte) (s : State) :
    (complete e bs s).olen = BitVec.ofNat 8 bs.length := rfl
@[simp] theorem complete_ibuf (e : ErrCode) (bs : List Byte) (s : State) :
    (complete e bs s).ibuf = s.ibuf := rfl
@[simp] theorem complete_obuf (e : ErrCode) (bs : List Byte) (s : State) :
    (complete e bs s).obuf = Memory.ofBytes bs := rfl
@[simp] theorem complete_draws (e : ErrCode) (bs : List Byte) (s : State) :
    (complete e bs s).draws = s.draws + 1 := rfl
@[simp] theorem complete_host (e : ErrCode) (bs : List Byte) (s : State) :
    (complete e bs s).host = s.host := rfl
@[simp] theorem complete_turns (e : ErrCode) (bs : List Byte) (s : State) :
    (complete e bs s).turns = s.turns := rfl

/-! ### accept -/

@[simp] theorem accept_cmd (v : Byte) (s : State) : (accept v s).cmd = v := rfl
@[simp] theorem accept_status (v : Byte) (s : State) : (accept v s).status = busyStatus := rfl
@[simp] theorem accept_ilen (v : Byte) (s : State) : (accept v s).ilen = s.ilen := rfl
@[simp] theorem accept_olen (v : Byte) (s : State) : (accept v s).olen = s.olen := rfl
@[simp] theorem accept_ibuf (v : Byte) (s : State) : (accept v s).ibuf = s.ibuf := rfl
@[simp] theorem accept_obuf (v : Byte) (s : State) : (accept v s).obuf = s.obuf := rfl
@[simp] theorem accept_draws (v : Byte) (s : State) : (accept v s).draws = s.draws := rfl
@[simp] theorem accept_host (v : Byte) (s : State) : (accept v s).host = s.host := rfl
@[simp] theorem accept_turns (v : Byte) (s : State) : (accept v s).turns = s.turns := rfl

/-! ### applyReset -/

@[simp] theorem applyReset_cmd (s : State) : (applyReset s).cmd = 0x00#8 := rfl
@[simp] theorem applyReset_status (s : State) : (applyReset s).status = 0x00#8 := rfl
@[simp] theorem applyReset_ilen (s : State) : (applyReset s).ilen = 0x00#8 := rfl
@[simp] theorem applyReset_olen (s : State) : (applyReset s).olen = 0x00#8 := rfl
@[simp] theorem applyReset_ibuf (s : State) : (applyReset s).ibuf = [] := rfl
@[simp] theorem applyReset_obuf (s : State) : (applyReset s).obuf = [] := rfl
@[simp] theorem applyReset_draws (s : State) : (applyReset s).draws = s.draws := rfl
@[simp] theorem applyReset_host (s : State) : (applyReset s).host = s.host := rfl
@[simp] theorem applyReset_turns (s : State) : (applyReset s).turns = s.turns := rfl

/-! ### popTurn -/

@[simp] theorem popTurn_cmd (s : State) : (s.popTurn).cmd = s.cmd := rfl
@[simp] theorem popTurn_status (s : State) : (s.popTurn).status = s.status := rfl
@[simp] theorem popTurn_ilen (s : State) : (s.popTurn).ilen = s.ilen := rfl
@[simp] theorem popTurn_olen (s : State) : (s.popTurn).olen = s.olen := rfl
@[simp] theorem popTurn_ibuf (s : State) : (s.popTurn).ibuf = s.ibuf := rfl
@[simp] theorem popTurn_obuf (s : State) : (s.popTurn).obuf = s.obuf := rfl
@[simp] theorem popTurn_draws (s : State) : (s.popTurn).draws = s.draws := rfl
@[simp] theorem popTurn_host (s : State) : (s.popTurn).host = s.host := rfl
@[simp] theorem popTurn_turns (s : State) : (s.popTurn).turns = s.turns.tail := rfl

/-! ### draw -/

@[simp] theorem draw_cmd (a : Nat) (s : State) : (draw a s).2.cmd = s.cmd := rfl
@[simp] theorem draw_status (a : Nat) (s : State) : (draw a s).2.status = s.status := rfl
@[simp] theorem draw_ilen (a : Nat) (s : State) : (draw a s).2.ilen = s.ilen := rfl
@[simp] theorem draw_olen (a : Nat) (s : State) : (draw a s).2.olen = s.olen := rfl
@[simp] theorem draw_ibuf (a : Nat) (s : State) : (draw a s).2.ibuf = s.ibuf := rfl
@[simp] theorem draw_obuf (a : Nat) (s : State) : (draw a s).2.obuf = s.obuf := rfl
@[simp] theorem draw_draws (a : Nat) (s : State) : (draw a s).2.draws = s.draws + 1 := rfl
@[simp] theorem draw_host (a : Nat) (s : State) : (draw a s).2.host = s.host := rfl
@[simp] theorem draw_turns (a : Nat) (s : State) : (draw a s).2.turns = s.turns := rfl

/-! ### withTodo -/

@[simp] theorem withTodo_cmd (s : State) (l : List HostAction) : (s.withTodo l).cmd = s.cmd := rfl
@[simp] theorem withTodo_status (s : State) (l : List HostAction) : (s.withTodo l).status = s.status := rfl
@[simp] theorem withTodo_ilen (s : State) (l : List HostAction) : (s.withTodo l).ilen = s.ilen := rfl
@[simp] theorem withTodo_olen (s : State) (l : List HostAction) : (s.withTodo l).olen = s.olen := rfl
@[simp] theorem withTodo_ibuf (s : State) (l : List HostAction) : (s.withTodo l).ibuf = s.ibuf := rfl
@[simp] theorem withTodo_obuf (s : State) (l : List HostAction) : (s.withTodo l).obuf = s.obuf := rfl
@[simp] theorem withTodo_draws (s : State) (l : List HostAction) : (s.withTodo l).draws = s.draws := rfl
@[simp] theorem withTodo_host (s : State) (l : List HostAction) :
    (s.withTodo l).host = { s.host with todo := l } := rfl
@[simp] theorem withTodo_turns (s : State) (l : List HostAction) : (s.withTodo l).turns = s.turns := rfl

/-! ### noteRead -/

@[simp] theorem noteRead_cmd (s : State) (v : Byte) : (s.noteRead v).cmd = s.cmd := rfl
@[simp] theorem noteRead_status (s : State) (v : Byte) : (s.noteRead v).status = s.status := rfl
@[simp] theorem noteRead_ilen (s : State) (v : Byte) : (s.noteRead v).ilen = s.ilen := rfl
@[simp] theorem noteRead_olen (s : State) (v : Byte) : (s.noteRead v).olen = s.olen := rfl
@[simp] theorem noteRead_ibuf (s : State) (v : Byte) : (s.noteRead v).ibuf = s.ibuf := rfl
@[simp] theorem noteRead_obuf (s : State) (v : Byte) : (s.noteRead v).obuf = s.obuf := rfl
@[simp] theorem noteRead_draws (s : State) (v : Byte) : (s.noteRead v).draws = s.draws := rfl
@[simp] theorem noteRead_host (s : State) (v : Byte) :
    (s.noteRead v).host = { s.host with lastRead := v } := rfl
@[simp] theorem noteRead_turns (s : State) (v : Byte) : (s.noteRead v).turns = s.turns := rfl

/-! ### noteStatus -/

@[simp] theorem noteStatus_cmd (s : State) (v : Byte) : (s.noteStatus v).cmd = s.cmd := rfl
@[simp] theorem noteStatus_status (s : State) (v : Byte) : (s.noteStatus v).status = s.status := rfl
@[simp] theorem noteStatus_ilen (s : State) (v : Byte) : (s.noteStatus v).ilen = s.ilen := rfl
@[simp] theorem noteStatus_olen (s : State) (v : Byte) : (s.noteStatus v).olen = s.olen := rfl
@[simp] theorem noteStatus_ibuf (s : State) (v : Byte) : (s.noteStatus v).ibuf = s.ibuf := rfl
@[simp] theorem noteStatus_obuf (s : State) (v : Byte) : (s.noteStatus v).obuf = s.obuf := rfl
@[simp] theorem noteStatus_draws (s : State) (v : Byte) : (s.noteStatus v).draws = s.draws := rfl
@[simp] theorem noteStatus_host (s : State) (v : Byte) :
    (s.noteStatus v).host = { s.host with status := v } := rfl
@[simp] theorem noteStatus_turns (s : State) (v : Byte) : (s.noteStatus v).turns = s.turns := rfl

/-! ### withGot -/

@[simp] theorem withGot_cmd (s : State) (l : List Byte) : (s.withGot l).cmd = s.cmd := rfl
@[simp] theorem withGot_status (s : State) (l : List Byte) : (s.withGot l).status = s.status := rfl
@[simp] theorem withGot_ilen (s : State) (l : List Byte) : (s.withGot l).ilen = s.ilen := rfl
@[simp] theorem withGot_olen (s : State) (l : List Byte) : (s.withGot l).olen = s.olen := rfl
@[simp] theorem withGot_ibuf (s : State) (l : List Byte) : (s.withGot l).ibuf = s.ibuf := rfl
@[simp] theorem withGot_obuf (s : State) (l : List Byte) : (s.withGot l).obuf = s.obuf := rfl
@[simp] theorem withGot_draws (s : State) (l : List Byte) : (s.withGot l).draws = s.draws := rfl
@[simp] theorem withGot_host (s : State) (l : List Byte) :
    (s.withGot l).host = { s.host with got := l } := rfl
@[simp] theorem withGot_turns (s : State) (l : List Byte) : (s.withGot l).turns = s.turns := rfl

@[simp] theorem draw_value (a : Nat) (s : State) : (draw a s).1 = Config.freeByte s.draws a := rfl

/-! ### busy -/

@[simp] theorem popTurn_busy (s : State) : s.popTurn.busy = s.busy := rfl
@[simp] theorem draw_busy (a : Nat) (s : State) : (draw a s).2.busy = s.busy := rfl
@[simp] theorem withTodo_busy (s : State) (l : List HostAction) : (s.withTodo l).busy = s.busy := rfl
@[simp] theorem noteRead_busy (s : State) (v : Byte) : (s.noteRead v).busy = s.busy := rfl
@[simp] theorem noteStatus_busy (s : State) (v : Byte) : (s.noteStatus v).busy = s.busy := rfl
@[simp] theorem withGot_busy (s : State) (l : List Byte) : (s.withGot l).busy = s.busy := rfl

/-! ### The fields of a composed status -/

@[simp] theorem busyBit_statusOf (b d : Bool) (e : BitVec 3) : busyBit (statusOf b d e) = b := by
  revert b d e; decide
@[simp] theorem doneBit_statusOf (b d : Bool) (e : BitVec 3) : doneBit (statusOf b d e) = d := by
  revert b d e; decide
@[simp] theorem rsvBits_statusOf (b d : Bool) (e : BitVec 3) : rsvBits (statusOf b d e) = 0 := by
  revert b d e; decide
@[simp] theorem errBits_statusOf (b d : Bool) (e : BitVec 3) : errBits (statusOf b d e) = e := by
  revert b d e; decide

@[simp] theorem busyBit_busyStatus : busyBit busyStatus = true := rfl
@[simp] theorem busyBit_doneStatus (e : ErrCode) : busyBit (doneStatus e) = false := busyBit_statusOf ..
@[simp] theorem doneBit_doneStatus (e : ErrCode) : doneBit (doneStatus e) = true := doneBit_statusOf ..
@[simp] theorem errBits_doneStatus (e : ErrCode) : errBits (doneStatus e) = e.code := errBits_statusOf ..
@[simp] theorem rsvBits_doneStatus (e : ErrCode) : rsvBits (doneStatus e) = 0 := rsvBits_statusOf ..

@[simp] theorem accept_busy (v : Byte) (s : State) : (accept v s).busy = true := busyBit_busyStatus

@[simp] theorem complete_busy (e : ErrCode) (bs : List Byte) (s : State) : (complete e bs s).busy = false :=
  busyBit_doneStatus e

@[simp] theorem applyReset_busy (s : State) : (applyReset s).busy = false := by
  rw [State.busy, applyReset_status]; rfl

theorem legalStatus_doneStatus (e : ErrCode) : legalStatus (doneStatus e) = true := by cases e <;> rfl

/-- The status of a completion is 0x40 exactly if there was no error. -/
theorem doneStatus_eq_ok_iff (e : ErrCode) : doneStatus e = 0x40#8 ↔ e = .ok := by cases e <;> decide

end Sys2Proof.Machine
end

