-- ==== Sys2Proof/Laws/Window.lean ====
section
/-! SUPPORT. The register window at the offsets of `IBUF`, `OBUF` and `OLEN`, one lemma each. -/

namespace Sys2Proof.Machine

theorem windowByte_olen (s : State) : windowByte s Config.offOlen = if s.busy then none else some s.olen := rfl

theorem windowByte_status (s : State) : windowByte s Config.offStatus = some s.status := rfl

theorem windowByte_ibuf (s : State) {k : Nat} (h : k < Config.bufSize) :
    windowByte s (Config.offIbuf + k) = Memory.lookup s.ibuf k := by
  simp only [windowByte, Config.offCmd, Config.offStatus, Config.offIlen, Config.offOlen, Config.offIbuf,
    Config.bufSize] at *
  rw [if_neg (by omega), if_neg (by omega), if_neg (by omega), if_neg (by omega), if_pos (by omega)]
  congr 1; omega

theorem windowByte_obuf (s : State) {k : Nat} (h : k < Config.bufSize) :
    windowByte s (Config.offObuf + k) = if s.busy then none else Memory.lookup s.obuf k := by
  simp only [windowByte, Config.offCmd, Config.offStatus, Config.offIlen, Config.offOlen, Config.offIbuf,
    Config.offObuf, Config.bufSize] at *
  rw [if_neg (by omega), if_neg (by omega), if_neg (by omega), if_neg (by omega), if_neg (by omega),
    if_pos (by omega), show 128 + k - 128 = k by omega]

theorem hostWrite_busy {s : State} (h : s.busy = true) (a : Nat) (v : Byte) : hostWrite a v s = s := by
  simp [hostWrite, h]

theorem hostWrite_cmd {s : State} (h : s.busy = false) (v : Byte) :
    hostWrite Config.offCmd v s = accept v s := by simp [hostWrite, h]

theorem hostWrite_ilen {s : State} (h : s.busy = false) (v : Byte) :
    hostWrite Config.offIlen v s = { s with ilen := v } := by
  simp [hostWrite, h, Config.offIlen, Config.offCmd]

theorem hostWrite_ibuf {s : State} (h : s.busy = false) {k : Nat} (hk : k < Config.bufSize) (v : Byte) :
    hostWrite (Config.offIbuf + k) v s = { s with ibuf := Memory.store s.ibuf k v } := by
  simp only [hostWrite, h, Config.offCmd, Config.offIlen, Config.offIbuf, Config.bufSize] at *
  rw [if_neg (by simp), if_neg (by omega), if_neg (by omega), if_pos (by omega),
    show 64 + k - 64 = k by omega]

/-- Reading `STATUS` never draws a free value. -/
theorem fetchByte_status (s : State) : fetchByte Config.offStatus s = s.noteRead s.status := rfl

/-- A poll of `STATUS` that is satisfied keeps the status and goes on. -/
theorem pollStatus_ready {ready : Byte → Bool} {s : State} (a : HostAction) (h : ready s.status = true) :
    pollStatus ready a s = (s.noteRead s.status).noteStatus s.status := if_pos h

/-- A poll of `STATUS` that is not satisfied keeps the status and polls again. -/
theorem pollStatus_again {ready : Byte → Bool} {s : State} (a : HostAction) (h : ready s.status = false) :
    pollStatus ready a s =
      ((s.noteRead s.status).noteStatus s.status).withTodo (a :: s.host.todo) := by
  have e : pollStatus ready a s = if ready s.status = true then (s.noteRead s.status).noteStatus s.status
    else ((s.noteRead s.status).noteStatus s.status).withTodo (a :: s.host.todo) := rfl
  rw [e, if_neg (by simp [h])]

/-- A read of a specified byte keeps the byte and changes nothing else. -/
theorem fetchByte_of_some {s : State} {a : Nat} {v : Byte} (h : windowByte s a = some v) :
    fetchByte a s = s.noteRead v := by simp [fetchByte, hostRead, h]

end Sys2Proof.Machine
end

