-- ==== Sys2Proof/Laws/Step.lean ====
section
/-! SUPPORT. What each shared operation and one step can do, said once. -/

namespace Sys2Proof.Machine

/-- TPLDEC where decoding succeeds. -/
theorem execTpldec_ok {s : State} {p : List Byte} (h : tplDecode (s.readIn s.fileLen) = .ok p) :
    execTpldec s = .next (complete .ok p s) := by simp only [execTpldec, h]

/-- TPLDEC where decoding fails. -/
theorem execTpldec_error {s : State} {e : ErrCode} (h : tplDecode (s.readIn s.fileLen) = .error e) :
    execTpldec s = .next (raise e s) := by simp only [execTpldec, h]

/-- Everything `exec` can do: a completion, with a result of one of the five lengths, or an error without a
result (R15, R18 (b), R165). -/
theorem exec_cases (i : Instr) (s : State) :
    (∃ bs, exec i s = .next (complete .ok bs s) ∧ bs.length ∈ [2, 3, 32, 48, 52]) ∨
    (∃ e, e ≠ .ok ∧ exec i s = .next (complete e [] s)) := by
  cases i
  case pack => exact .inl ⟨_, rfl, by simp⟩
  case unpack => exact .inl ⟨_, rfl, by simp⟩
  case tpldec =>
    cases h : tplDecode (s.readIn s.fileLen) with
    | ok p => exact .inl ⟨p, by simp [exec, execTpldec, h], by simp [tplDecode_ok_length h]⟩
    | error e => exact .inr ⟨e, tplDecode_error_ne_ok h, by simp [exec, execTpldec, h, raise]⟩
  case tplenc => exact .inl ⟨_, rfl, by simp [tplEncode_length, Config.palBytes]⟩
  case pal2bgr => exact .inl ⟨_, rfl, by simp [palToBgr_length, Config.palBytes]⟩
  case bgr2pal => exact .inl ⟨_, rfl, by simp [bgrToPal_length, Config.palBytes]⟩

/-- Everything a block's turn can do (R22, R53). -/
theorem blockTurn_cases (s : State) :
    (s.busy = false ∧ blockTurn s = .next s) ∨
    (s.busy = true ∧ ∃ i, decode s.cmd = .ok i ∧ blockTurn s = exec i s) ∨
    (s.busy = true ∧ ∃ d, decode s.cmd = .error d ∧ blockTurn s = .next (raise .illegalOp s)) := by
  unfold blockTurn completeCommand
  cases hb : s.busy
  · simp
  · cases hd : decode s.cmd <;> simp

/-- A busy block completes, with the shape `exec_cases` gives. -/
theorem blockTurn_busy {s : State} (h : s.busy = true) :
    (∃ bs, blockTurn s = .next (complete .ok bs s) ∧ bs.length ∈ [2, 3, 32, 48, 52]) ∨
    (∃ e, e ≠ .ok ∧ blockTurn s = .next (complete e [] s)) := by
  obtain ⟨h', -⟩ | ⟨-, i, -, hi⟩ | ⟨-, d, -, hd⟩ := blockTurn_cases s
  · simp [h] at h'
  · rw [hi]; exact exec_cases i s
  · exact .inr ⟨.illegalOp, by simp, hd⟩

/-- A host read returns the window's byte, or draws (R32). -/
theorem hostRead_cases (addr : Nat) (s : State) :
    (∃ v, windowByte s addr = some v ∧ hostRead addr s = (v, s)) ∨
    (windowByte s addr = none ∧ hostRead addr s = draw addr s) := by
  unfold hostRead
  cases h : windowByte s addr <;> simp

/-- Everything a host write can do (R33). -/
theorem hostWrite_cases (addr : Nat) (v : Byte) (s : State) :
    hostWrite addr v s = s ∨
    (s.busy = false ∧ addr = Config.offCmd ∧ hostWrite addr v s = accept v s) ∨
    (s.busy = false ∧ addr = Config.offIlen ∧ hostWrite addr v s = { s with ilen := v }) ∨
    (s.busy = false ∧ ∃ i, i < Config.bufSize ∧ addr = Config.offIbuf + i ∧
      hostWrite addr v s = { s with ibuf := Memory.store s.ibuf i v }) := by
  unfold hostWrite
  cases hb : s.busy
  · simp only [Bool.false_eq_true, if_false, true_and]
    split
    · rename_i h; exact .inr (.inl ⟨h, rfl⟩)
    · split
      · rename_i h; exact .inr (.inr (.inl ⟨h, rfl⟩))
      · split
        · rename_i h
          exact .inr (.inr (.inr ⟨addr - Config.offIbuf, by omega, by omega, rfl⟩))
        · exact .inl rfl
  · simp

theorem SameBlock.refl (s : State) : SameBlock s s := ⟨rfl, rfl, rfl, rfl, rfl, rfl⟩

theorem SameBlock.trans {s t u : State} (h : SameBlock s t) (k : SameBlock t u) : SameBlock s u := by
  obtain ⟨a, b, c, d, e, f⟩ := h
  obtain ⟨a', b', c', d', e', f'⟩ := k
  exact ⟨a'.trans a, b'.trans b, c'.trans c, d'.trans d, e'.trans e, f'.trans f⟩

theorem SameBlock.busy {s t : State} (h : SameBlock s t) : t.busy = s.busy := congrArg busyBit h.2.1

/-- What the window shows depends on the block only. -/
theorem SameBlock.windowByte {s t : State} (h : SameBlock s t) (a : Nat) : windowByte t a = windowByte s a := by
  unfold Machine.windowByte
  rw [h.busy, h.1, h.2.1, h.2.2.1, h.2.2.2.1, h.2.2.2.2.1, h.2.2.2.2.2]

theorem sameBlock_fetchByte (addr : Nat) (s : State) : SameBlock s (fetchByte addr s) := by
  obtain ⟨v, -, h⟩ | ⟨-, h⟩ := hostRead_cases addr s <;> simp [fetchByte, h, SameBlock]

theorem sameBlock_pollStatus (r : Byte → Bool) (a : HostAction) (s : State) :
    SameBlock s (pollStatus r a s) := by
  refine (sameBlock_fetchByte Config.offStatus s).trans ?_
  simp only [pollStatus]
  split <;> simp [SameBlock]

theorem sameBlock_readLength (s : State) : SameBlock s (readLength s) :=
  (sameBlock_fetchByte Config.offOlen s).trans (by simp [readLength, SameBlock])

theorem sameBlock_readResult (k : Nat) (s : State) : SameBlock s (readResult k s) :=
  (sameBlock_fetchByte (Config.offObuf + k) s).trans (by simp [readResult, SameBlock])

/-- Everything an access of the host can do to the block: the one host write it issues, or, if it issues none,
nothing (R32, R33). -/
theorem runAction_cases {a : HostAction} {s t : State} (h : runAction a s = .next t) :
    (∃ addr v, IssuesWrite a addr v ∧ t = hostWrite addr v s) ∨
    ((∀ addr v, ¬ IssuesWrite a addr v) ∧ SameBlock s t) := by
  cases a with
  | memRead addr w =>
    simp only [runAction] at h
    split at h <;> simp at h
    subst h; exact .inr ⟨by simp [IssuesWrite], sameBlock_fetchByte _ _⟩
  | memWrite addr w v =>
    simp only [runAction] at h
    split at h <;> simp at h
    rename_i hw
    exact .inl ⟨addr, v, .inl (by rw [hw]), h.symm⟩
  | busRead addr w =>
    simp only [runAction] at h
    split at h
    · injection h with h
      subst h
      refine .inr ⟨by simp [IssuesWrite], ?_⟩
      split
      · exact sameBlock_fetchByte _ _
      · simp [fetchOutside, SameBlock]
    · simp at h
  | busWrite addr w v =>
    simp only [runAction] at h
    split at h
    · rename_i hw
      injection h with h
      subst h
      cases ho : busOffset addr with
      | some off => exact .inl ⟨off, v, .inr ⟨addr, by rw [hw], ho⟩, rfl⟩
      | none => exact .inr ⟨by simp [IssuesWrite, ho], SameBlock.refl s⟩
    · simp at h
  | pollIdle =>
    simp only [runAction] at h; injection h with h; subst h
    exact .inr ⟨by simp [IssuesWrite], sameBlock_pollStatus ..⟩
  | pollDone =>
    simp only [runAction] at h; injection h with h; subst h
    exact .inr ⟨by simp [IssuesWrite], sameBlock_pollStatus ..⟩
  | readLen =>
    simp only [runAction] at h; injection h with h; subst h
    exact .inr ⟨by simp [IssuesWrite], sameBlock_readLength s⟩
  | readOut k =>
    simp only [runAction] at h; injection h with h; subst h
    exact .inr ⟨by simp [IssuesWrite], sameBlock_readResult k s⟩
  | reload =>
    simp only [runAction] at h; injection h with h; subst h
    exact .inr ⟨by simp [IssuesWrite], by simp [SameBlock]⟩
  | stopOnError =>
    simp only [runAction] at h; injection h with h; subst h
    refine .inr ⟨by simp [IssuesWrite], ?_⟩
    split
    · exact SameBlock.refl s
    · simp [SameBlock]

/-- Everything a host turn can do to the block: nothing where the host has nothing to do, else what its first
access does. -/
theorem hostTurn_cases {s t : State} (h : hostTurn s = .next t) :
    (s.host.todo = [] ∧ t = s) ∨
    ∃ a l, s.host.todo = a :: l ∧
      ((∃ addr v, IssuesWrite a addr v ∧ t = hostWrite addr v (s.withTodo l)) ∨
      ((∀ addr v, ¬ IssuesWrite a addr v) ∧ SameBlock s t)) := by
  unfold hostTurn at h
  split at h
  · rename_i hl; injection h with h; exact .inl ⟨hl, h.symm⟩
  · rename_i a l hl
    refine .inr ⟨a, l, hl, (runAction_cases h).imp id fun ⟨hn, hs⟩ => ⟨hn, ?_⟩⟩
    exact SameBlock.trans (t := s.withTodo l) (SameBlock.refl s) hs

/-- An access of one byte is answered. -/
theorem runAction_next {a : HostAction} (h : a.wf = true) (s : State) : ∃ t, runAction a s = .next t := by
  cases a <;> simp_all [HostAction.wf, runAction]

/-- An access of another width is refused (R35). -/
theorem runAction_refused {a : HostAction} (h : a.wf = false) (s : State) :
    runAction a s = .refused .wideAccess := by
  cases a <;> simp_all [HostAction.wf, runAction]

/-- The accesses of a load are one byte wide. -/
theorem loadWrites_wf (k : Nat) (bs : List Byte) : (loadWrites k bs).all HostAction.wf = true := by
  induction bs generalizing k with
  | nil => rfl
  | cons b bs ih => simp [loadWrites, HostAction.wf, ih (k+1)]

/-- A host write never touches the host or the turns. -/
theorem hostWrite_turns (a : Nat) (v : Byte) (s : State) :
    (hostWrite a v s).turns = s.turns ∧ (hostWrite a v s).host = s.host := by
  obtain h | ⟨_, _, h⟩ | ⟨_, _, h⟩ | ⟨_, _, _, _, h⟩ := hostWrite_cases a v s <;> rw [h] <;> exact ⟨rfl, rfl⟩

/-- A host read never touches the turns or what the host has still to do. -/
theorem fetchByte_turns (a : Nat) (s : State) :
    (fetchByte a s).turns = s.turns ∧ (fetchByte a s).host.todo = s.host.todo := by
  obtain ⟨v, _, h⟩ | ⟨_, h⟩ := hostRead_cases a s <;> simp [fetchByte, h]

/-- An access of the host keeps the turns, and leaves it only accesses one byte wide if it had only such. -/
theorem runAction_keeps {a : HostAction} {s t : State} (h : runAction a s = .next t)
    (hw : s.host.todo.all HostAction.wf = true) :
    t.turns = s.turns ∧ t.host.todo.all HostAction.wf = true := by
  cases a with
  | memRead addr w =>
    simp only [runAction] at h
    split at h <;> simp at h
    subst h; rw [(fetchByte_turns _ _).1, (fetchByte_turns _ _).2]; exact ⟨rfl, hw⟩
  | memWrite addr w v =>
    simp only [runAction] at h
    split at h <;> simp at h
    subst h; rw [(hostWrite_turns _ _ _).1, (hostWrite_turns _ _ _).2]; exact ⟨rfl, hw⟩
  | busRead addr w =>
    simp only [runAction] at h
    split at h
    · injection h with h
      subst h
      split
      · rw [(fetchByte_turns _ _).1, (fetchByte_turns _ _).2]; exact ⟨rfl, hw⟩
      · exact ⟨rfl, hw⟩
    · simp at h
  | busWrite addr w v =>
    simp only [runAction] at h
    split at h
    · injection h with h
      subst h
      split
      · rw [(hostWrite_turns _ _ _).1, (hostWrite_turns _ _ _).2]; exact ⟨rfl, hw⟩
      · exact ⟨rfl, hw⟩
    · simp at h
  | pollIdle =>
    simp only [runAction] at h; injection h with h; subst h
    cases hr : !busyBit s.status
    · rw [pollStatus_again _ hr]; exact ⟨rfl, by simpa [HostAction.wf] using hw⟩
    · rw [pollStatus_ready _ hr]; exact ⟨rfl, hw⟩
  | pollDone =>
    simp only [runAction] at h; injection h with h; subst h
    cases hr : doneBit s.status
    · rw [pollStatus_again _ hr]; exact ⟨rfl, by simpa [HostAction.wf] using hw⟩
    · rw [pollStatus_ready _ hr]; exact ⟨rfl, hw⟩
  | readLen =>
    simp only [runAction, readLength] at h; injection h with h; subst h
    refine ⟨(fetchByte_turns _ _).1, ?_⟩
    show (List.map HostAction.readOut _ ++ (fetchByte Config.offOlen s).host.todo).all HostAction.wf = true
    rw [List.all_append, (fetchByte_turns _ _).2, hw, Bool.and_true, List.all_eq_true]
    intro x hx; obtain ⟨k, _, rfl⟩ := List.mem_map.1 hx; rfl
  | readOut k =>
    simp only [runAction, readResult] at h; injection h with h; subst h
    refine ⟨(fetchByte_turns _ _).1, ?_⟩
    show ((fetchByte (Config.offObuf + k) s).host.todo).all HostAction.wf = true
    rw [(fetchByte_turns _ _).2]; exact hw
  | reload =>
    simp only [runAction] at h; injection h with h; subst h
    refine ⟨rfl, ?_⟩
    show (loadActions s.host.got ++ s.host.todo).all HostAction.wf = true
    rw [List.all_append, hw, Bool.and_true, loadActions, List.all_append, loadWrites_wf]; rfl
  | stopOnError =>
    simp only [runAction] at h; injection h with h; subst h
    split
    · exact ⟨rfl, hw⟩
    · exact ⟨rfl, rfl⟩

/-- Everything one step can do, by whose turn it is (R22). -/
theorem step_cases (s : State) :
    (nextTurn s = .host ∧ step s = hostTurn s.popTurn) ∨
    (nextTurn s = .block ∧ step s = blockTurn s.popTurn) ∨
    (nextTurn s = .reset ∧ step s = .next (applyReset s.popTurn)) := by
  unfold step
  cases h : nextTurn s <;> simp [takeTurn]

end Sys2Proof.Machine
end

