-- ==== Sys2Proof/Laws/Codec.lean ====
section
/-! SUPPORT. The pure functions of the BGR15 converter as numbers, one lemma each, and when an operation that
answers `complete` completes in the sense of the statements. -/

namespace Sys2Proof.Machine

theorem scale8to5_toNat (c : Byte) : (scale8to5 c).toNat = c.toNat / 8 := by
  simp [scale8to5, Config.scale]; omega

theorem scale5to8_toNat (c : Chan5) : (scale5to8 c).toNat = c.toNat * 8 := by
  simp [scale5to8, Config.scale]; omega

theorem pack15_toNat (c : Color) :
    (pack15 c).toNat = c.b.toNat / 8 * 1024 + c.g.toNat / 8 * 32 + c.r.toNat / 8 := by
  simp only [pack15, scale8to5_toNat, BitVec.toNat_ofNat]; omega

theorem unpack15_r_toNat (w : Word16) : (unpack15 w).r.toNat = w.toNat % 32 * 8 := by
  simp [unpack15, scale5to8_toNat]

theorem unpack15_g_toNat (w : Word16) : (unpack15 w).g.toNat = w.toNat / 32 % 32 * 8 := by
  simp [unpack15, scale5to8_toNat]

theorem unpack15_b_toNat (w : Word16) : (unpack15 w).b.toNat = w.toNat / 1024 % 32 * 8 := by
  simp [unpack15, scale5to8_toNat]

theorem loByte_toNat (w : Word16) : (loByte w).toNat = w.toNat % 256 := by simp [loByte]

theorem hiByte_toNat (w : Word16) : (hiByte w).toNat = w.toNat / 256 := by
  simp [hiByte, Nat.shiftRight_eq_div_pow]; omega

theorem le16_toNat (lo hi : Byte) : (le16 lo hi).toNat = hi.toNat * 256 + lo.toNat := by
  simp only [le16, BitVec.toNat_or, BitVec.toNat_shiftLeft, BitVec.toNat_setWidth]
  rw [Nat.mod_eq_of_lt (show hi.toNat < 2 ^ 16 by omega), Nat.mod_eq_of_lt (show lo.toNat < 2 ^ 16 by omega),
    Nat.shiftLeft_eq, Nat.mod_eq_of_lt (by omega), ← Nat.shiftLeft_eq,
    ← Nat.shiftLeft_add_eq_or_of_lt (show lo.toNat < 2 ^ 8 by omega), Nat.shiftLeft_eq]

theorem color_ext {a b : Color} (hr : a.r.toNat = b.r.toNat) (hg : a.g.toNat = b.g.toNat)
    (hb : a.b.toNat = b.b.toNat) : a = b := by
  obtain ⟨r, g, bl⟩ := a
  obtain ⟨r', g', bl'⟩ := b
  rw [Color.mk.injEq]
  exact ⟨BitVec.eq_of_toNat_eq hr, BitVec.eq_of_toNat_eq hg, BitVec.eq_of_toNat_eq hb⟩

/-- An operation that answers `complete` with at most 52 bytes completes with that result, frame and all. -/
theorem completesWith_of_exec {i : Instr} {s : State} {e : ErrCode} {bs : List Byte}
    (h : exec i s = .next (complete e bs s)) (hl : bs.length ≤ 52) : CompletesWith i s e bs :=
  ⟨_, h, by simp, by simp; omega, by simp, by simp, by simp, by simp, rfl, rfl, fun _ => rfl, rfl, rfl⟩

end Sys2Proof.Machine
end

