-- ==== Sys2Proof/Laws/PerInstr.lean ====
section
/-! SUPPORT. Statements about every instruction as syntax, one lemma per constructor. -/

namespace Sys2Proof.Laws.CommandByte

/-- The command byte of an instruction has `RSV = 0`, is one of 0x01..0x06, and decodes to it (R50, R51). -/
def Statement (i : Instr) : Prop :=
  cmdRsv (encode i) = 0 ∧ 1 ≤ (encode i).toNat ∧ (encode i).toNat ≤ 6 ∧ decode (encode i) = .ok i

theorem pack : Statement .pack := by unfold Statement; decide
theorem unpack : Statement .unpack := by unfold Statement; decide
theorem tpldec : Statement .tpldec := by unfold Statement; decide
theorem tplenc : Statement .tplenc := by unfold Statement; decide
theorem pal2bgr : Statement .pal2bgr := by unfold Statement; decide
theorem bgr2pal : Statement .bgr2pal := by unfold Statement; decide

end Sys2Proof.Laws.CommandByte

namespace Sys2Proof.Laws.Operandless

/-- An instruction has no operand that could be ill formed (R52). -/
def Statement (i : Instr) : Prop := i.wf = true

theorem pack : Statement .pack := rfl
theorem unpack : Statement .unpack := rfl
theorem tpldec : Statement .tpldec := rfl
theorem tplenc : Statement .tplenc := rfl
theorem pal2bgr : Statement .pal2bgr := rfl
theorem bgr2pal : Statement .bgr2pal := rfl

end Sys2Proof.Laws.Operandless
end

