-- ==== Sys2Proof/Laws/Run.lean ====
section
/-! SUPPORT. Runs of several steps: how they chain, and what one step is where no turns are prescribed. -/

namespace Sys2Proof.Machine

/-- `n` steps of the machine, in the model's own types. -/
def runSteps : Nat → State → Host.Outcome State Fault Refusal
  | 0, s => .next s
  | n + 1, s =>
    match step s with
    | .next t => runSteps n t
    | .fault r => .fault r
    | .refused r => .refused r

theorem runSteps_succ {s t : State} (n : Nat) (h : step s = .next t) : runSteps (n + 1) s = runSteps n t := by
  simp only [runSteps, h]

/-- The host's runs of `core` are `runSteps`. -/
theorem core_run_eq (n : Nat) (s : State) : Host.Core.run Sys2Proof.core n s = runSteps n s := by
  induction n generalizing s with
  | zero => rfl
  | succ n ih =>
    have e : Host.Core.run Sys2Proof.core (n + 1) s = Host.Outcome.rec (motive := fun _ =>
        Host.Outcome State Fault Refusal) (fun t => Host.Core.run Sys2Proof.core n t) (fun r => .fault r)
        (fun r => .refused r) (step s) := by
      cases h : step s <;> simp only [Host.Core.run, show Sys2Proof.core.step s = step s from rfl, h] <;> rfl
    rw [e]
    cases h : step s with
    | next t => rw [runSteps_succ n h]; exact ih t
    | fault r => exact nomatch r
    | refused r => unfold runSteps; rw [h]

theorem runSteps_one {s t : State} (h : step s = .next t) : runSteps 1 s = .next t := runSteps_succ 0 h

/-- Runs chain. -/
theorem runSteps_add {s t : State} {m : Nat} (n : Nat) (h : runSteps m s = .next t) :
    runSteps (m + n) s = runSteps n t := by
  induction m generalizing s with
  | zero => simp only [runSteps] at h; injection h with h; rw [Nat.zero_add, h]
  | succ m ih =>
    cases hs : step s with
    | next u =>
      rw [runSteps_succ m hs] at h
      rw [show m + 1 + n = m + n + 1 by omega, runSteps_succ _ hs, ih h]
    | fault r => simp [runSteps, hs] at h
    | refused r => simp [runSteps, hs] at h

theorem popTurn_of_nil {s : State} (h : s.turns = []) : s.popTurn = s := by
  cases s; simp only at h; subst h; rfl

/-- Where no turns are prescribed, an idle block leaves the step to the host. -/
theorem step_idle {s : State} (hb : s.busy = false) (ht : s.turns = []) : step s = hostTurn s := by
  simp [step, nextTurn, ht, hb, takeTurn, popTurn_of_nil ht]

/-- Where no turns are prescribed, a busy block completes. -/
theorem step_busy {s : State} (hb : s.busy = true) (ht : s.turns = []) : step s = blockTurn s := by
  simp [step, nextTurn, ht, hb, takeTurn, popTurn_of_nil ht]

theorem hostTurn_cons {s : State} {a : HostAction} {rest : List HostAction} (h : s.host.todo = a :: rest) :
    hostTurn s = runAction a (s.withTodo rest) := by simp only [hostTurn, h]

/-- The writes of a `LOAD` or `LOADAT`, one step each (R61). -/
theorem runSteps_loadWrites (bs : List Byte) (k : Nat) (s : State) (rest : List HostAction)
    (hb : s.busy = false) (ht : s.turns = []) (hl : k + bs.length ≤ 52)
    (hh : s.host.todo = loadWrites k bs ++ rest) :
    ∃ t, runSteps bs.length s = .next t ∧ t.host = { s.host with todo := rest } ∧ t.turns = [] ∧
      (∀ j, Memory.lookup t.ibuf j =
        if k ≤ j ∧ j < k + bs.length then bs[j - k]? else Memory.lookup s.ibuf j) ∧
      t.cmd = s.cmd ∧ t.status = s.status ∧ t.ilen = s.ilen ∧ t.olen = s.olen ∧ t.obuf = s.obuf := by
  induction bs generalizing k s rest with
  | nil =>
    refine ⟨s, rfl, ?_, ht, ?_, rfl, rfl, rfl, rfl, rfl⟩
    · cases hs : s.host; simp [hs, loadWrites] at hh ⊢; exact hh
    · intro j; simp; try omega
  | cons b bs ih =>
    simp only [List.length_cons] at hl ⊢
    simp only [loadWrites, List.cons_append] at hh
    let u : State := { s.withTodo (loadWrites (k + 1) bs ++ rest) with ibuf := Memory.store s.ibuf k b }
    have hs : step s = .next u := by
      rw [step_idle hb ht, hostTurn_cons hh]
      simp only [runAction, if_true]
      rw [hostWrite_ibuf (s := s.withTodo (loadWrites (k + 1) bs ++ rest)) hb (k := k)
        (by simp only [Config.bufSize]; omega)]
      rfl
    obtain ⟨t, h1, h2, h3, h4, h5⟩ := ih (k + 1) u rest hb ht (by omega) rfl
    refine ⟨t, by rw [runSteps_succ _ hs]; exact h1, h2, h3, fun j => ?_, h5⟩
    rw [h4 j]
    simp only [u]
    by_cases hj : j = k
    · subst hj; rw [if_neg (by omega), if_pos (by omega), lookup_store_same]; simp
    · rw [lookup_store_other _ _ (Ne.symm hj)]
      by_cases hc : k + 1 ≤ j ∧ j < k + 1 + bs.length
      · rw [if_pos hc, if_pos (by omega), show j - k = (j - (k + 1)) + 1 by omega]; simp
      · rw [if_neg hc, if_neg (by omega)]

/-- The result reads of a `READ`, one step each (R61). -/
theorem runSteps_readOuts (n k : Nat) (s : State) (rest : List HostAction)
    (hb : s.busy = false) (ht : s.turns = []) (hl : k + n ≤ 52)
    (hd : ∀ j, k ≤ j → j < k + n → (Memory.lookup s.obuf j).isSome = true)
    (hh : s.host.todo = (List.range' k n).map .readOut ++ rest) :
    ∃ t, runSteps n s = .next t ∧ t.host.todo = rest ∧ t.host.status = s.host.status ∧ t.turns = [] ∧
      SameBlock s t ∧ ∃ bs, t.host.got = s.host.got ++ bs ∧ bs.length = n ∧
        ∀ j < n, bs[j]? = Memory.lookup s.obuf (k + j) := by
  induction n generalizing k s rest with
  | zero => exact ⟨s, rfl, by simpa using hh, rfl, ht, SameBlock.refl s, [], by simp, rfl, by simp⟩
  | succ n ih =>
    rw [List.range'_succ, List.map_cons, List.cons_append] at hh
    obtain ⟨v, hv⟩ := Option.isSome_iff_exists.1 (hd k (by omega) (by omega))
    let r := (List.range' (k + 1) n).map HostAction.readOut ++ rest
    have hw : windowByte (s.withTodo r) (Config.offObuf + k) = some v := by
      rw [windowByte_obuf _ (by simp only [Config.bufSize]; omega)]; simp [hb, hv]
    let u := ((s.withTodo r).noteRead v).withGot (s.host.got ++ [v])
    have hs : step s = .next u := by
      rw [step_idle hb ht, hostTurn_cons hh]
      simp only [runAction, readResult]
      rw [fetchByte_of_some hw]; rfl
    obtain ⟨t, h1, h2, h2', h3, h4, bs, h5, h6, h7⟩ :=
      ih (k + 1) u rest hb ht (by omega) (fun j h1 h2 => hd j (by omega) (by omega)) rfl
    refine ⟨t, by rw [runSteps_succ _ hs]; exact h1, h2, h2', h3,
      SameBlock.trans (t := u) ⟨rfl, rfl, rfl, rfl, rfl, rfl⟩ h4, v :: bs, ?_, by simp [h6], ?_⟩
    · rw [h5]; simp [u]
    · intro j hj
      cases j with
      | zero => simp [hv]
      | succ j =>
        rw [List.getElem?_cons_succ, h7 j (by omega)]
        show Memory.lookup s.obuf _ = _
        congr 1; omega

end Sys2Proof.Machine
end

