-- ==== Sys2Proof/Laws/Text.lean ====
section
/-! SUPPORT. The line splitter of the text layer (R135 step 1): what is passed over, and the line in hand. -/

namespace Sys2Proof.Machine

/-- The characters of a break are passed over. -/
theorem splitFrom_skip (p : HostParams) (n : Nat) (line cs : List Char) :
    splitFrom p n line cs = splitFrom p 0 line (cs.drop n) := by
  induction n generalizing cs with
  | zero => rfl
  | succ n ih =>
    cases cs with
    | nil => simp [splitFrom]
    | cons c cs => rw [splitFrom, ih, List.drop_succ_cons]

/-- The line in hand is put before the first line of the rest, and touches no other line. -/
theorem splitFrom_line (p : HostParams) (line cs : List Char) :
    ∃ l ls, splitLines p cs = l :: ls ∧ splitFrom p 0 line cs = (line.reverse ++ l) :: ls := by
  suffices h : ∀ (n : Nat) (cs : List Char), cs.length ≤ n → ∀ line : List Char,
      ∃ l ls, splitFrom p 0 [] cs = l :: ls ∧ splitFrom p 0 line cs = (line.reverse ++ l) :: ls from
    h cs.length cs le_rfl line
  intro n
  induction n with
  | zero =>
    intro cs hc line
    obtain rfl := List.length_eq_zero_iff.1 (Nat.le_zero.1 hc)
    exact ⟨[], [], by simp [splitFrom], by simp [splitFrom]⟩
  | succ n ih =>
    intro cs hc line
    cases cs with
    | nil => exact ⟨[], [], by simp [splitFrom], by simp [splitFrom]⟩
    | cons c cs =>
      cases hb : breakLength p (c :: cs) with
      | some k => exact ⟨[], _, by simp only [splitFrom, hb]; rfl, by simp [splitFrom, hb]⟩
      | none =>
        have hc' : cs.length ≤ n := by simpa using hc
        obtain ⟨l, ls, h1, h2⟩ := ih cs hc' (c :: line)
        obtain ⟨l', ls', h3, h4⟩ := ih cs hc' [c]
        rw [h1] at h3
        obtain ⟨rfl, rfl⟩ := List.cons.inj h3
        exact ⟨c :: l, ls, by simpa [splitFrom, hb] using h4, by simpa [splitFrom, hb] using h2⟩

end Sys2Proof.Machine
end

