-- ==== Sys2Proof/Tests/Slice0.lean ====
section
/-! SUPPORT. Tests. The expected values are the spec's own (95_test_vectors.md, vectors V<n>, examples S<n>, and
the worked examples of the rules named), or counted by hand from a rule. -/

namespace Sys2Proof.Tests

open Sys2Proof Sys2Proof.Machine

/-! ## Helpers -/

/-- A state with the given registers and buffers. -/
def blockState (cmd status ilen olen : Byte) (ibuf obuf : List Byte) : State :=
  { State.reset with
    cmd := cmd, status := status, ilen := ilen, olen := olen
    ibuf := Memory.ofBytes ibuf, obuf := Memory.ofBytes obuf }

/-- An idle block with an input presented. -/
def loaded (ilen : Byte) (ibuf : List Byte) : State := blockState 0 0 ilen 0 ibuf []

/-- A busy block with an input presented. -/
def busyWith (cmd ilen : Byte) (ibuf : List Byte) : State := blockState cmd 0x80#8 ilen 0 ibuf []

def nextOf : Host.Outcome State Fault Refusal → Option State
  | .next s => some s
  | .fault r => nomatch r
  | .refused _ => none

/-- `STATUS`, `OLEN` and the specified bytes of `OBUF` after a step. -/
def resultOf (o : Host.Outcome State Fault Refusal) : Option (Byte × Byte × Memory) :=
  (nextOf o).map fun t => (t.status, t.olen, t.obuf)

/-- `n` zero bytes. -/
def z (n : Nat) : List Byte := List.replicate n 0#8

def magic : List Byte := [0x54#8, 0x50#8, 0x4C#8, 0x00#8]

/-- Bytes 0x00, 0x01, ..., 0x2F (V41). -/
def count48 : List Byte := (List.range 48).map (BitVec.ofNat 8)

/-- The palette of V73. -/
def v73Palette : List Byte :=
  [0x00#8, 0x00#8, 0x00#8, 0xFF#8, 0xFF#8, 0xFF#8, 0xFF#8, 0x00#8, 0x00#8, 0x00#8, 0xFF#8, 0x00#8] ++
  [0x00#8, 0x00#8, 0xFF#8, 0xFF#8, 0x9C#8, 0x00#8, 0x12#8, 0x34#8, 0x56#8, 0x50#8, 0x60#8, 0x80#8] ++
  [0x07#8, 0x07#8, 0x07#8, 0x08#8, 0x08#8, 0x08#8, 0x80#8, 0x80#8, 0x80#8, 0xF7#8, 0x08#8, 0xFF#8] ++
  [0x01#8, 0x02#8, 0x03#8, 0xF8#8, 0xF8#8, 0xF8#8, 0x64#8, 0x96#8, 0xC8#8, 0x21#8, 0x42#8, 0x63#8]

/-- The stream of V73. -/
def v73Stream : List Byte :=
  [0x00#8, 0x00#8, 0xFF#8, 0x7F#8, 0x1F#8, 0x00#8, 0xE0#8, 0x03#8, 0x00#8, 0x7C#8, 0x7F#8, 0x02#8] ++
  [0xC2#8, 0x28#8, 0x8A#8, 0x41#8, 0x00#8, 0x00#8, 0x21#8, 0x04#8, 0x10#8, 0x42#8, 0x3E#8, 0x7C#8] ++
  [0x00#8, 0x00#8, 0xFF#8, 0x7F#8, 0x4C#8, 0x66#8, 0x04#8, 0x31#8]

/-- The palette of V89. -/
def v89Palette : List Byte :=
  [0x00#8, 0x00#8, 0x00#8, 0xF8#8, 0xF8#8, 0xF8#8, 0xF8#8, 0x00#8, 0x00#8, 0x00#8, 0xF8#8, 0x00#8] ++
  [0x00#8, 0x00#8, 0xF8#8, 0xF8#8, 0x98#8, 0x00#8, 0x10#8, 0x30#8, 0x50#8, 0x50#8, 0x60#8, 0x80#8] ++
  [0x00#8, 0x00#8, 0x00#8, 0x08#8, 0x08#8, 0x08#8, 0x80#8, 0x80#8, 0x80#8, 0xF0#8, 0x08#8, 0xF8#8] ++
  [0x00#8, 0x00#8, 0x00#8, 0xF8#8, 0xF8#8, 0xF8#8, 0x60#8, 0x90#8, 0xC8#8, 0x20#8, 0x40#8, 0x60#8]

/-! ## Well-formedness: what each check refuses -/

theorem test_wf_access_width : (HostAction.memRead 0x40 2).wf = false ∧ (HostAction.memWrite 0 0 1).wf = false ∧
    (HostAction.busRead 0 4).wf = false ∧ (HostAction.busWrite 0 2 0).wf = false ∧
    (HostAction.memRead 0x40 1).wf = true := by decide

theorem test_wf_load_length : (HostLine.load (z 53)).wf = false ∧ (HostLine.load (z 52)).wf = true := by decide

theorem test_wf_line_break : ({ defaultParams with lineBreaks := [[]] } : HostParams).wf = false ∧
    defaultParams.wf = true := by decide

/-- An instruction has no operand, so no term of it is ill formed (R52). -/
theorem test_wf_instr : [Instr.pack, .unpack, .tpldec, .tplenc, .pal2bgr, .bgr2pal].all Instr.wf = true := by decide

/-! ## Decoding: the bits of R51's table, one by one -/

theorem test_decode_pack : decode 0b00000001#8 = .ok .pack := by decide
theorem test_decode_unpack : decode 0b00000010#8 = .ok .unpack := by decide
theorem test_decode_tpldec : decode 0b00000011#8 = .ok .tpldec := by decide
theorem test_decode_tplenc : decode 0b00000100#8 = .ok .tplenc := by decide
theorem test_decode_pal2bgr : decode 0b00000101#8 = .ok .pal2bgr := by decide
theorem test_decode_bgr2pal : decode 0b00000110#8 = .ok .bgr2pal := by decide

/-- V100 to V104. -/
theorem test_decode_illegal : decode 0x00#8 = .error .noOperation ∧ decode 0x07#8 = .error .unusedCode ∧
    decode 0x09#8 = .error .reservedBits ∧ decode 0x83#8 = .error .reservedBits ∧
    decode 0xFF#8 = .error .reservedBits := by decide

/-- The words of spec/opcode_table.json, and two it does not have. -/
theorem test_decode_table : (decodeTableWord 8 1).map Instr.mnemonic = some "PACK" ∧
    (decodeTableWord 8 2).map Instr.mnemonic = some "UNPACK" ∧
    (decodeTableWord 8 3).map Instr.mnemonic = some "TPLDEC" ∧
    (decodeTableWord 8 4).map Instr.mnemonic = some "TPLENC" ∧
    (decodeTableWord 8 5).map Instr.mnemonic = some "PAL2BGR" ∧
    (decodeTableWord 8 6).map Instr.mnemonic = some "BGR2PAL" ∧
    decodeTableWord 8 7 = none ∧ decodeTableWord 8 256 = none := by decide

/-! ## The operations -/

/-- V10, V14. -/
theorem test_pack : resultOf (exec .pack (loaded 0 [0xFF#8, 0x9C#8, 0x00#8])) =
      some (0x40#8, 2#8, [(0, 0x7F#8), (1, 0x02#8)]) ∧
    resultOf (exec .pack (loaded 255 [0xF7#8, 0x08#8, 0xFF#8, 0xAA#8])) =
      some (0x40#8, 2#8, [(0, 0x3E#8), (1, 0x7C#8)]) := by decide

/-- V28 (bit 15 set), V33. -/
theorem test_unpack : resultOf (exec .unpack (loaded 0 [0x8A#8, 0xC1#8])) =
      some (0x40#8, 3#8, [(0, 0x50#8), (1, 0x60#8), (2, 0x80#8)]) ∧
    resultOf (exec .unpack (loaded 0 [0x7F#8, 0x02#8])) =
      some (0x40#8, 3#8, [(0, 0xF8#8), (1, 0x98#8), (2, 0x00#8)]) := by decide

/-- V43, V44, V45, V47, V48, V51: the boundaries of the two checks. -/
theorem test_tpldec_errors :
    resultOf (exec .tpldec (loaded 3 [0x54#8, 0x50#8, 0x4C#8])) = some (0x41#8, 0#8, []) ∧
    resultOf (exec .tpldec (loaded 4 magic)) = some (0x42#8, 0#8, []) ∧
    resultOf (exec .tpldec (loaded 51 (magic ++ z 47))) = some (0x42#8, 0#8, []) ∧
    resultOf (exec .tpldec (loaded 52 ([0x54#8, 0x50#8, 0x4C#8, 0x20#8] ++ z 48))) = some (0x41#8, 0#8, []) ∧
    resultOf (exec .tpldec (loaded 10 (z 1 ++ [0x50#8, 0x4C#8] ++ z 7))) = some (0x41#8, 0#8, []) ∧
    resultOf (exec .tpldec (loaded 3 (magic ++ z 4))) = some (0x41#8, 0#8, []) :=
  ⟨rfl, rfl, rfl, rfl, rfl, rfl⟩

/-- V41, V49. -/
theorem test_tpldec_success :
    resultOf (exec .tpldec (loaded 52 (magic ++ count48))) = some (0x40#8, 48#8, Memory.ofBytes count48) ∧
    resultOf (exec .tpldec (loaded 255 (magic ++ [0xFF#8, 0x9C#8, 0x00#8] ++ z 45))) =
      some (0x40#8, 48#8, Memory.ofBytes ([0xFF#8, 0x9C#8, 0x00#8] ++ z 45)) := ⟨rfl, rfl⟩

/-- V62, V63 (no quantization). -/
theorem test_tplenc :
    resultOf (exec .tplenc (loaded 6 count48)) = some (0x40#8, 52#8, Memory.ofBytes (magic ++ count48)) ∧
    resultOf (exec .tplenc (loaded 0 (List.replicate 48 0xFF#8))) =
      some (0x40#8, 52#8, Memory.ofBytes (magic ++ List.replicate 48 0xFF#8)) := ⟨rfl, rfl⟩

/-- V73. -/
theorem test_pal2bgr :
    resultOf (exec .pal2bgr (loaded 0 v73Palette)) = some (0x40#8, 32#8, Memory.ofBytes v73Stream) := rfl

/-- V89. -/
theorem test_bgr2pal_whole :
    resultOf (exec .bgr2pal (loaded 32 v73Stream)) = some (0x40#8, 48#8, Memory.ofBytes v89Palette) := rfl

/-- V80, V81, V83, V84, V90: few bytes, an odd byte, bytes at or beyond `ILEN`. -/
theorem test_bgr2pal_short :
    resultOf (exec .bgr2pal (loaded 0 [])) = some (0x40#8, 48#8, Memory.ofBytes (z 48)) ∧
    resultOf (exec .bgr2pal (loaded 1 [0xFF#8])) = some (0x40#8, 48#8, Memory.ofBytes (z 48)) ∧
    resultOf (exec .bgr2pal (loaded 3 [0xFF#8, 0x7F#8, 0x1F#8])) =
      some (0x40#8, 48#8, Memory.ofBytes ([0xF8#8, 0xF8#8, 0xF8#8] ++ z 45)) ∧
    resultOf (exec .bgr2pal (loaded 4 [0x00#8, 0x00#8, 0x8A#8, 0x41#8])) =
      some (0x40#8, 48#8, Memory.ofBytes (z 3 ++ [0x50#8, 0x60#8, 0x80#8] ++ z 42)) ∧
    resultOf (exec .bgr2pal (loaded 2 [0x8A#8, 0x41#8, 0xFF#8, 0xFF#8])) =
      some (0x40#8, 48#8, Memory.ofBytes ([0x50#8, 0x60#8, 0x80#8] ++ z 45)) := ⟨rfl, rfl, rfl, rfl, rfl⟩

/-! ## The step, acceptance, the window, reset -/

/-- The word the host places runs as the first instruction after reset; V100, V101, V104 and V102 complete with
`ILLEGAL_OP`. -/
theorem test_step_illegal :
    (nextOf (step (State.reset.withFetchWord 8 0x07))).map (fun t => (t.status, t.olen, t.cmd)) =
      some (0x43#8, 0#8, 0x07#8) ∧
    (nextOf (step (State.reset.withFetchWord 8 0x00))).map (fun t => (t.status, t.olen, t.cmd)) =
      some (0x43#8, 0#8, 0x00#8) ∧
    (nextOf (step (State.reset.withFetchWord 8 0xFF))).map (fun t => (t.status, t.olen, t.cmd)) =
      some (0x43#8, 0#8, 0xFF#8) ∧
    (nextOf (step (State.reset.withFetchWord 8 0x09))).map (fun t => (t.status, t.olen, t.cmd)) =
      some (0x43#8, 0#8, 0x09#8) := by decide

/-- V105, with nothing placed in the buffers. -/
theorem test_step_fetch_word :
    resultOf (step (State.reset.withFetchWord 8 0x06)) = some (0x40#8, 48#8, Memory.ofBytes (z 48)) := rfl

/-- V110, V114, V115. -/
theorem test_window_reads : (hostRead 0x00 State.reset).1 = 0 ∧ (hostRead 0x01 State.reset).1 = 0 ∧
    (hostRead 0x02 State.reset).1 = 0 ∧ (hostRead 0x03 State.reset).1 = 0 ∧
    (hostRead 0x10 (hostWrite 0x10 0xAA#8 State.reset)).1 = 0 ∧
    (hostRead 0x74 (hostWrite 0x74 0xAA#8 State.reset)).1 = 0 := by decide

/-- V111, V112, V113, V116. -/
theorem test_window_writes : (hostRead 0x40 (hostWrite 0x40 0x5A#8 State.reset)).1 = 0x5A#8 ∧
    hostWrite 0x01 0xFF#8 State.reset = State.reset ∧ hostWrite 0x80 0xFF#8 State.reset = State.reset ∧
    (hostWrite 0x00 0x01#8 (blockState 3 0x42#8 0 0 [] [])).status = 0x80#8 := by decide

/-- V117. -/
theorem test_busy_ignores_writes :
    hostWrite 0x00 0x07#8 (hostWrite 0x40 0x99#8 (busyWith 5 0 (z 48))) = busyWith 5 0 (z 48) := by decide

/-- R190, R191: reset of a busy block. -/
theorem test_reset_while_busy : applyReset (busyWith 1 3 [1#8, 2#8, 3#8]) = State.reset := by decide

/-! ## The text layer -/

/-- S2. -/
theorem test_rgb_text : parseRgbText defaultParams "000000\nff9c00".toList =
    ⟨0#8, 0#8, 0#8⟩ :: ⟨0xFF#8, 0x9C#8, 0x00#8⟩ :: List.replicate 14 ⟨0#8, 0#8, 0#8⟩ := by decide

/-- R136: drop, then pad. -/
theorem test_rgb_text_drops : parseRgbText defaultParams "ff0000\nzzzzzz\n0000ff".toList =
    ⟨0xFF#8, 0#8, 0#8⟩ :: ⟨0#8, 0#8, 0xFF#8⟩ :: List.replicate 14 ⟨0#8, 0#8, 0#8⟩ := by decide

/-- S3; R137 (1) to (3) applied by hand to `0 0 8A41`, which strips to `008A41` (log entry 24); R138. -/
theorem test_bgr_text : parseBgrText defaultParams "00 00 8A 41".toList =
      .ok (⟨0#8, 0#8, 0#8⟩ :: ⟨0x50#8, 0x60#8, 0x80#8⟩ :: List.replicate 14 ⟨0#8, 0#8, 0#8⟩) ∧
    bgrTextBytes defaultParams "0 0 8A41".toList = .ok [0x00#8, 0x8A#8, 0x41#8] ∧
    bgrTextBytes defaultParams "00 0g".toList = .error .invalidByteSequence := by decide

/-- R131, R133: the examples. -/
theorem test_hex_color : parseHexColor "Ff9c00".toList = .ok ⟨0xFF#8, 0x9C#8, 0x00#8⟩ ∧
    parseHexColor "#ff9c00".toList = .error .invalidFormat ∧ parseHexColor "ff9c0".toList = .error .invalidFormat ∧
    parseHexColor "ff9c0g".toList = .error .invalidFormat ∧ parseHexColor [] = .error .invalidFormat ∧
    renderHexColor ⟨248#8, 0#8, 0#8⟩ = "f80000".toList ∧ renderHexColor ⟨0#8, 8#8, 0#8⟩ = "000800".toList := by decide

/-! ## Witnesses: states and operands that meet the hypotheses of each statement, clause by clause -/

/-- A completed PACK: idle, done, two result bytes. -/
def packDone : State := blockState 1 0x40#8 3 2 [0xFF#8, 0x00#8, 0x00#8] [0x1F#8, 0x00#8]

/-- A failed TPLDEC: idle, done, no result. -/
def tplFailed : State := blockState 3 0x41#8 3 0 [0x54#8] []

/-- The state with the given turns. -/
def withTurns (l : List Turn) (s : State) : State := { s with turns := l }

theorem blockInv_of (cmd status ilen : Byte) (ibuf obuf : List Byte) (hi : ibuf.length ≤ 52)
    (ho : obuf.length ≤ 52) (hs : legalStatus status = true) (hl : legalOlen (BitVec.ofNat 8 obuf.length) = true)
    (he : busyBit status = false → (obuf.length = 0 ↔ status ≠ 0x40#8)) :
    BlockInv (blockState cmd status ilen (BitVec.ofNat 8 obuf.length) ibuf obuf) where
  ibufWf := wf_ofBytes _ hi
  obufWf := wf_ofBytes _ ho
  statusLegal := hs
  olenLegal := hl
  obufDefined k := by simp [blockState]; omega
  olenError h := by
    rw [show (blockState cmd status ilen (BitVec.ofNat 8 obuf.length) ibuf obuf).status = status from rfl, ← he h]
    constructor
    · intro h
      have := congrArg BitVec.toNat h
      simp [blockState] at this; omega
    · intro h; simp [blockState, h]

theorem packDone_inv : BlockInv packDone :=
  blockInv_of 1 0x40#8 3 [0xFF#8, 0x00#8, 0x00#8] [0x1F#8, 0x00#8] (by decide) (by decide) rfl rfl (by decide)

theorem tplFailed_inv : BlockInv tplFailed :=
  blockInv_of 3 0x41#8 3 [0x54#8] [] (by decide) (by decide) rfl rfl (by decide)

theorem busy_inv : BlockInv (busyWith 1 3 [1#8, 2#8, 3#8]) :=
  blockInv_of 1 0x80#8 3 [1#8, 2#8, 3#8] [] (by decide) (by decide) rfl rfl (by decide)

/-- A file of any length, presented as R14 (b) says. -/
theorem presents_loaded (f : List Byte) : Presents (loaded (BitVec.ofNat 8 (min f.length 255)) (f.take 52)) f := by
  refine ⟨?_, fun k hk _ => ?_⟩
  · simp [loaded, blockState]
  · have hk : k < 52 := hk
    simp [loaded, blockState, hk]

/-- The shortest input of each operation, one longer than the buffer, and one that presents it (any length:
`presents_loaded`). -/
theorem test_witness_OperationsImplementTheirFunctions :
    operandLen .pack ≤ (z 3).length ∧ operandLen .unpack ≤ (z 2).length ∧
    operandLen .tpldec ≤ ([] : List Byte).length ∧ operandLen .tplenc ≤ (z 48).length ∧
    operandLen .pal2bgr ≤ (z 48).length ∧ operandLen .bgr2pal ≤ (z 60).length ∧
    Presents (loaded 3 (z 3)) (z 3) ∧ Presents (loaded 48 (z 48)) (z 48) ∧ Presents (loaded 0 []) [] ∧
    Presents (loaded 60 ((z 60).take 52)) (z 60) :=
  ⟨by decide, by decide, by decide, by decide, by decide, by decide, presents_loaded (z 3), presents_loaded (z 48),
    presents_loaded [], presents_loaded (z 60)⟩

theorem test_witness_OtherCommandBytesEndInIllegalOp :
    (0x07#8).toNat = 7 ∧ 7 ≤ (0xFF#8).toNat ∧ packDone.busy = false ∧
    (busyWith 0 0 []).busy = true ∧ (busyWith 0 0 []).cmd = 0 ∧
    (busyWith 0xFF 0 []).busy = true ∧ (busyWith 0xFF 0 []).cmd = 0xFF := by decide

theorem test_witness_StepRunsTheSelectedOperation :
    (busyWith 3 4 magic).busy = true ∧ nextTurn (busyWith 3 4 magic) = .block ∧
    nextTurn (withTurns [.block, .host] (busyWith 3 4 magic)) = .block ∧
    decode (busyWith 3 4 magic).cmd = .ok .tpldec := by decide

/-- Each case: reset, completion, an idle block's turn, a host with nothing to do, a host's turn that writes, one that
writes through `BASE` and one that reads. -/
theorem test_witness_BlockChangesByCompletionHostWriteOrReset :
    (nextOf (step (withTurns [.reset] packDone))).isSome = true ∧ nextTurn (withTurns [.reset] packDone) = .reset ∧
    (nextOf (step (busyWith 1 3 [1#8, 2#8, 3#8]))).isSome = true ∧ nextTurn (busyWith 1 3 [1#8, 2#8, 3#8]) = .block ∧
    (nextOf (step (withTurns [.block] packDone))).isSome = true ∧ nextTurn (withTurns [.block] packDone) = .block ∧
    (nextOf (step (packDone.withTodo [.memWrite 0x02 1 9#8]))).map (fun t => t.ilen) = some 9#8 ∧
    nextTurn (packDone.withTodo [.memWrite 0x02 1 9#8]) = .host ∧ IssuesWrite (.memWrite 0x02 1 9#8) 0x02 9#8 ∧
    (nextOf (step packDone)).isSome = true ∧ packDone.host.todo = [] ∧
    IssuesWrite (.busWrite (Config.base + 0x02) 1 9#8) 0x02 9#8 ∧
    (nextOf (step (packDone.withTodo [.memRead 0x02 1]))).isSome = true ∧
    ∀ addr v, ¬ IssuesWrite (.memRead 0x02 1) addr v :=
  ⟨rfl, rfl, rfl, rfl, rfl, rfl, rfl, rfl, .inl rfl, rfl, rfl,
    .inr ⟨_, rfl, by simp [busOffset, Config.windowSize]⟩, rfl, by simp [IssuesWrite]⟩

theorem test_witness_BusyBlockCompletesInItsTurn :
    (busyWith 0x83 0 []).busy = true ∧ nextTurn (busyWith 0x83 0 []) = .block := by decide

/-- A host turn whose access is two bytes wide, and one whose access is one byte wide. -/
theorem test_witness_StepStopsOnlyOnAccessesNotOneByteWide :
    nextTurn (packDone.withTodo [.memRead 0x40 2]) = .host ∧
    nextOf (step (packDone.withTodo [.memRead 0x40 2])) = none ∧
    (nextOf (step (packDone.withTodo [.memRead 0x40 1]))).isSome = true := ⟨rfl, rfl, rfl⟩

/-- An idle state, a busy one with a legal and one with an illegal command, and a step of each kind that changes
`STATUS`. -/
theorem test_witness_StatusChangesOnlyAtAcceptanceCompletionReset :
    packDone.busy = false ∧ (busyWith 1 3 (z 3)).busy = true ∧ decode (busyWith 1 3 (z 3)).cmd = .ok .pack ∧
    (busyWith 7 3 (z 3)).busy = true ∧ decode (busyWith 7 3 (z 3)).cmd = .error .unusedCode ∧
    (nextOf (step (withTurns [.reset] packDone))).map (fun t => t.status) = some 0x00#8 ∧
    (nextOf (step (busyWith 1 3 (z 3)))).map (fun t => t.status) = some 0x40#8 ∧
    (nextOf (step (packDone.withTodo [.memWrite 0 1 1#8]))).map (fun t => t.status) = some 0x80#8 :=
  ⟨rfl, rfl, rfl, rfl, rfl, rfl, rfl, rfl⟩

theorem test_witness_StatusIsWrittenWhole : packDone.busy = false ∧ (busyWith 3 0 []).busy = true ∧
    (nextOf (blockTurn (busyWith 3 0 []))).map (fun t => t.status) = some 0x41#8 := by decide

theorem test_witness_RaiseLeavesTheCodeAndNoResult :
    (nextOf (exec .tpldec (loaded 0 []))).map (fun t => errBits t.status) = some 1#3 := by decide

theorem test_witness_ResetAbandonsTheOperation :
    (withTurns [.reset, .block] (busyWith 1 3 (z 3))).busy = true ∧
    (withTurns [.reset, .block] (busyWith 1 3 (z 3))).turns = [.reset, .block] := by decide

theorem test_witness_HostWritesAreLostWhileBusy :
    (busyWith 5 0 (z 48)).busy = true ∧ nextTurn (busyWith 5 0 (z 48)) ≠ .reset ∧
    (nextOf (step (withTurns [.host] ((busyWith 5 0 (z 48)).withTodo [.memWrite 0x40 1 1#8])))).isSome = true :=
  ⟨rfl, by decide, rfl⟩

theorem test_witness_StepKeepsTheBlockInvariant :
    BlockInv packDone ∧ (nextOf (step (packDone.withTodo [.memWrite 0x73 1 1#8]))).isSome = true ∧
    BlockInv (busyWith 1 3 [1#8, 2#8, 3#8]) ∧ (nextOf (step (busyWith 1 3 [1#8, 2#8, 3#8]))).isSome = true :=
  ⟨packDone_inv, rfl, busy_inv, rfl⟩

theorem test_witness_LegalStatusHasExclusiveFlags : BlockInv tplFailed ∧ errBits tplFailed.status ≠ 0 :=
  ⟨tplFailed_inv, by decide⟩

/-- A specified byte (the last of `IBUF`, the last result byte), an unmapped one at each edge, and an unspecified
one at `OLEN` and at 51. -/
theorem test_witness_HostReadFollowsTheWindowMap :
    windowByte (loaded 52 (z 51 ++ [0xAB#8])) 0x73 = some 0xAB#8 ∧ windowByte packDone 0x81 = some 0x00#8 ∧
    windowByte packDone 0x04 = some 0 ∧ windowByte packDone 0x3F = some 0 ∧ windowByte packDone 0x74 = some 0 ∧
    windowByte packDone 0x7F = some 0 ∧ windowByte packDone 0xB4 = some 0 ∧ windowByte packDone 0xFF = some 0 ∧
    BlockInv packDone ∧ packDone.busy = false ∧ packDone.olen.toNat = 2 :=
  ⟨rfl, rfl, rfl, rfl, rfl, rfl, rfl, rfl, packDone_inv, rfl, rfl⟩

theorem test_witness_HostWriteFollowsTheWindowMap :
    (busyWith 1 3 (z 3)).busy = true ∧ packDone.busy = false ∧
    [0x01, 0x03, 0x3F, 0x74, 0x80, 0xFF].all
      (fun a => a != 0x00 && a != 0x02 && !(0x40 ≤ a && a ≤ 0x73) && a ≤ 0xFF) = true := by
  decide

theorem test_witness_IbufReadsBackWhatWasWritten :
    packDone.busy = false ∧ (0 : Nat) < 52 ∧ (51 : Nat) < 52 ∧ (0x40 : Nat) ≠ 0x40 + 51 ∧
    Memory.wf packDone.ibuf = true := by decide

theorem test_witness_UnspecifiedReadsDrawAfresh :
    windowByte State.reset 0x40 = none ∧ windowByte (busyWith 1 3 (z 3)) 0x03 = none ∧
    windowByte packDone 0x82 = none ∧ windowByte packDone 0x81 = some 0 ∧ BlockInv packDone ∧
    packDone.busy = false := ⟨rfl, rfl, rfl, rfl, packDone_inv, rfl⟩

/-- Offsets 0 and 255, offset 256, and the first bus address beyond the window. -/
theorem test_witness_BusAccessesReachTheWindow :
    (0 : Nat) < 256 ∧ (255 : Nat) < 256 ∧ (256 : Nat) ≤ 256 ∧
    (Config.base + 256 < Config.base ∨ Config.base + 256 ≤ Config.base + 256) :=
  ⟨by decide, by decide, by decide, .inr (Nat.le_refl _)⟩

/-- A bad header of 3 bytes, a good one with `ILEN` 4 and 51, and with 52 and 255. -/
theorem test_witness_TpldecChecksHeaderThenLength :
    ¬ 4 ≤ (loaded 3 magic).ilen.toNat ∧
    (loaded 4 magic).ilen.toNat = 4 ∧ (loaded 4 magic).ibufByte 0 = 0x54#8 ∧ (loaded 4 magic).ibufByte 1 = 0x50#8 ∧
    (loaded 4 magic).ibufByte 2 = 0x4C#8 ∧ (loaded 4 magic).ibufByte 3 = 0x00#8 ∧
    (loaded 51 magic).ilen.toNat = 51 ∧ (loaded 52 magic).ilen.toNat = 52 ∧ (loaded 255 magic).ilen.toNat = 255 := by
  decide

theorem test_witness_FiveOperationsCannotFail : Instr.bgr2pal ≠ .tpldec ∧
    (nextOf (blockTurn (busyWith 3 0 []))).map (fun t => errBits t.status) = some 1#3 ∧
    (nextOf (blockTurn (busyWith 7 0 []))).map (fun t => errBits t.status) = some 3#3 := by decide

theorem test_witness_NoOperationChangesItsInputs :
    (nextOf (exec .tplenc (loaded 0 (z 48)))).isSome = true ∧ (nextOf (exec .tpldec (loaded 0 []))).isSome = true :=
  ⟨rfl, rfl⟩

/-- A color of multiples of 8 (V12), and PACK, then UNPACK on its bytes (V10, V33). -/
theorem test_witness_PackThenUnpackClearsLowBits :
    (0x50#8).toNat % 8 = 0 ∧ (0x60#8).toNat % 8 = 0 ∧ (0x80#8).toNat % 8 = 0 ∧
    (nextOf (exec .pack (loaded 3 [0xFF#8, 0x9C#8, 0x00#8]))).map (fun t => t.obuf) =
      some (loaded 2 [0x7F#8, 0x02#8]).ibuf := by decide

/-- Two words below 32768, and UNPACK, then PACK on its bytes (V28, V12). -/
theorem test_witness_UnpackThenPackClearsBit15 :
    (0x7FFF#16).toNat < 32768 ∧ unpack15 0x7FFF#16 = ⟨0xF8#8, 0xF8#8, 0xF8#8⟩ ∧
    (nextOf (exec .unpack (loaded 2 [0x8A#8, 0xC1#8]))).map (fun t => t.obuf) =
      some (loaded 3 [0x50#8, 0x60#8, 0x80#8]).ibuf := by decide

/-- One word of each class: no header, header alone, 51, 52 and 53 bytes. -/
theorem test_witness_TplDecodeHasThreeClasses :
    headerValid [] = false ∧ headerValid magic = true ∧ (magic ++ z 47).length = 51 ∧
    tplDecode (magic ++ z 48) = .ok (z 48) ∧ tplDecode (magic ++ z 49) = .ok (z 48) :=
  ⟨rfl, rfl, rfl, rfl, rfl⟩

/-- TPLENC, then its 52 bytes and its length as the input of TPLDEC (program P5). -/
theorem test_witness_TplencThenTpldecIsTheIdentity : (z 48).length = 48 ∧
    (nextOf (exec .tplenc (loaded 48 count48))).map (fun t => (t.obuf, t.olen)) =
      some ((loaded 52 (magic ++ count48)).ibuf, (loaded 52 (magic ++ count48)).ilen) := ⟨rfl, rfl⟩

/-- A file of exactly 52 bytes and a longer one. -/
theorem test_witness_TplDecodeThenEncodeKeepsTheFirst52Bytes :
    tplDecode (magic ++ count48) = .ok count48 ∧ (magic ++ count48).length = 52 ∧
    tplDecode (magic ++ count48 ++ [9#8]) = .ok count48 := ⟨rfl, rfl, rfl⟩

theorem test_witness_TplEncodeLaysOutTheFile : count48.length = 48 := rfl

/-- Entry 0 and entry 15. -/
theorem test_witness_PalToBgrByIndex : v73Palette.length = 48 ∧
    v73Palette[3 * 0]? = some 0x00#8 ∧ v73Palette[3 * 0 + 1]? = some 0x00#8 ∧ v73Palette[3 * 0 + 2]? = some 0x00#8 ∧
    v73Palette[3 * 15]? = some 0x21#8 ∧ v73Palette[3 * 15 + 1]? = some 0x42#8 ∧
    v73Palette[3 * 15 + 2]? = some 0x63#8 := ⟨rfl, rfl, rfl, rfl, rfl, rfl, rfl⟩

theorem test_witness_WordAssemblyByIndex : v73Stream[2 * 0]? = some 0x00#8 ∧ v73Stream[2 * 0 + 1]? = some 0x00#8 ∧
    v73Stream[2 * 15]? = some 0x04#8 ∧ v73Stream[2 * 15 + 1]? = some 0x31#8 := ⟨rfl, rfl, rfl, rfl⟩

/-- A whole stream: entry 15 is a word. Three bytes: entry 0 is a word, entries 1 and 15 are padding. -/
theorem test_witness_BgrToPalByIndex : 15 < min 16 (v73Stream.length / 2) ∧
    (wordsOf v73Stream)[15]? = some 0x3104#16 ∧ 0 < min 16 ((z 3).length / 2) ∧
    (wordsOf (z 3))[0]? = some 0x0000#16 ∧ min 16 ((z 3).length / 2) ≤ 1 ∧ min 16 ((z 3).length / 2) ≤ 15 := by decide

theorem test_witness_StreamsAreTruncatedAndOddBytesDiscarded :
    (z 33).length / 2 ≤ 16 ∧ (z 30).length % 2 = 0 ∧ (z 0).length % 2 = 0 := by decide

theorem test_witness_PaletteConversionsCompose : v73Palette.length = 48 ∧ v73Stream.length = 32 := ⟨rfl, rfl⟩

/-- Two palettes that agree in entry 15 only, and two streams that agree in word 0 only. -/
theorem test_witness_EntriesAreConvertedOnTheirOwn :
    (z 48).length = 48 ∧ (List.replicate 45 1#8 ++ z 3).length = 48 ∧
    (∀ j < 3, (z 48)[3 * 15 + j]? = (List.replicate 45 1#8 ++ z 3)[3 * 15 + j]?) ∧
    (0 < (z 2).length / 2 ↔ 0 < (z 2 ++ [5#8, 6#8]).length / 2) ∧
    (∀ j < 2, (z 2)[2 * 0 + j]? = (z 2 ++ [5#8, 6#8])[2 * 0 + j]?) := by decide

/-- Two states that agree on PACK's read set only, and on `ILEN` and the magic for TPLDEC. -/
theorem test_witness_ResultDependsOnTheRequestOnly :
    (∀ k ∈ readSet .pack (loaded 0 [1#8, 2#8, 3#8]), (loaded 0 [1#8, 2#8, 3#8]).ibufByte k =
      (blockState 6 0x42#8 9 48 [1#8, 2#8, 3#8, 4#8] [7#8]).ibufByte k) ∧ readsIlen .pack = false ∧
    (∀ k ∈ readSet .tpldec (loaded 4 magic), (loaded 4 magic).ibufByte k = (loaded 4 (magic ++ z 1)).ibufByte k) ∧
    readsIlen .tpldec = true ∧ (loaded 4 magic).ilen = (loaded 4 (magic ++ z 1)).ilen := by decide

/-- A busy PACK with its three bytes written, and two host turns before the block's, the host polling and writing. -/
theorem test_witness_ResultIsIndependentOfTheCompletionTime :
    let s := withTurns [.host, .host, .block, .host]
      ((busyWith 1 3 [1#8, 2#8, 3#8]).withTodo [.memWrite 0x40 1 9#8, .pollDone])
    s.busy = true ∧ CommandReady s ∧ s.turns = List.replicate 2 .host ++ .block :: [.host] ∧
    (s.host.todo.all HostAction.wf = true) := by
  refine ⟨rfl, ?_, rfl, rfl⟩
  intro i h
  have hi : Instr.pack = i := by
    change Result.ok Instr.pack = Result.ok i at h
    exact Result.ok.inj h
  subst hi
  intro k hk
  revert k
  unfold Written
  decide

/-- A busy block and an idle one, and an input of 53 bytes. -/
theorem test_witness_TransactionCallsTheFunction :
    operandLen .tpldec ≤ (magic ++ z 49).length ∧
    ((busyWith 1 3 (z 3)).withProgram (transaction .tpldec (magic ++ z 49))).turns = [] ∧
    ((busyWith 1 3 (z 3)).withProgram (transaction .tpldec (magic ++ z 49))).host.todo =
      programActions (transaction .tpldec (magic ++ z 49)) ∧
    (State.reset.withProgram (transaction .pack (z 3))).turns = [] := ⟨by decide, rfl, rfl, rfl⟩

/-- The longest load and the empty one. -/
theorem test_witness_LoadLineStoresItsBytes :
    packDone.busy = false ∧ packDone.turns = [] ∧ (HostLine.load (z 52)).wf = true ∧ (HostLine.load []).wf = true ∧
    (packDone.withTodo (lineActions (.load (z 52)) ++ [.pollIdle])).host.todo =
      lineActions (.load (z 52)) ++ [.pollIdle] := ⟨rfl, rfl, rfl, rfl, rfl⟩

/-- For `READ` and `XFER`: a result of two bytes and a result of none. -/
theorem test_witness_ReadLineYieldsTheResult :
    BlockInv (packDone.withTodo (lineActions .read)) ∧ packDone.busy = false ∧ packDone.turns = [] ∧
    BlockInv (tplFailed.withTodo (lineActions .read)) ∧ tplFailed.busy = false ∧ tplFailed.turns = [] ∧
    (packDone.withTodo (lineActions .read)).host.todo = lineActions .read ++ [] :=
  ⟨⟨packDone_inv.1, packDone_inv.2, packDone_inv.3, packDone_inv.4, packDone_inv.5, packDone_inv.6⟩, rfl, rfl,
    ⟨tplFailed_inv.1, tplFailed_inv.2, tplFailed_inv.3, tplFailed_inv.4, tplFailed_inv.5, tplFailed_inv.6⟩, rfl, rfl,
    rfl⟩

theorem test_witness_XferLineMovesTheResultToTheInput :
    BlockInv (packDone.withTodo (lineActions .xfer)) ∧ (packDone.withTodo (lineActions .xfer)).busy = false ∧
    (packDone.withTodo (lineActions .xfer)).turns = [] ∧
    (packDone.withTodo (lineActions .xfer)).host.todo = lineActions .xfer ++ [] :=
  ⟨⟨packDone_inv.1, packDone_inv.2, packDone_inv.3, packDone_inv.4, packDone_inv.5, packDone_inv.6⟩, rfl, rfl, rfl⟩

theorem test_witness_WaitLineReturnsTheCompletedStatus :
    ((busyWith 3 0 []).withTodo (lineActions .wait)).busy = true ∧ (busyWith 3 0 []).turns = [] ∧
    ((busyWith 3 0 []).withTodo (lineActions .wait)).host.todo = lineActions .wait ++ [] := by decide

/-- A string that is no HexColor. -/
theorem test_witness_HexColorIsExactlySixDigits : ∀ c, parseHexColor "ff9c0g".toList ≠ .ok c := by
  intro c h
  have e : parseHexColor "ff9c0g".toList = .error .invalidFormat := by decide
  rw [e] at h
  exact nomatch h

/-- The edges of the range, on both sides. -/
theorem test_witness_IntegerChannelsAreRejectedNotClamped :
    ((0 : Int) ≤ 0 ∧ (0 : Int) ≤ 255 ∧ (255 : Int) ≤ 255) ∧
    ¬ ((0 : Int) ≤ -1) ∧ ¬ ((256 : Int) ≤ 255) := by decide

/-- A text that begins with a break, one that begins with the longest break, one that does not and none at all; a
blank line and one that is not; a line with whitespace at both ends. -/
theorem test_witness_RgbTextGivesValidLinesThenBlack :
    breakLength defaultParams "\n00ff00\nzz".toList = some 1 ∧ breakLength defaultParams "\r\nz".toList = some 2 ∧
    breakLength defaultParams "00ff00".toList = none ∧ breakLength defaultParams [] = none ∧
    isBlank defaultParams " \t".toList = true ∧ isBlank defaultParams "zz".toList = false ∧
    trim defaultParams " ab c\t".toList = "ab c".toList := by decide

/-- Good texts, empty and with an odd last digit, and one whose bad character stands in that odd place. -/
theorem test_witness_BgrTextFailsExactlyOnNonHexCharacters :
    ("8A 4".toList.all fun ch => isSpace defaultParams ch || isHex ch) = true ∧
    bgrTextBytes defaultParams "8A 4".toList = .ok [0x8A#8] ∧ bgrTextBytes defaultParams [] = .ok [] ∧
    'g' ∈ "8A g".toList ∧ isSpace defaultParams 'g' = false ∧ hexDigit 'g' = none := by decide

end Sys2Proof.Tests
end

/-! # Proofs about acceptance, completion and reset (R18)

What a host write of `CMD` and a completion leave in the window, and the only ways a step can change `STATUS`. -/

section
namespace Sys2Proof.Machine

/-! ## Acceptance -/

@[simp] theorem doneBit_busyStatus : doneBit busyStatus = false := doneBit_statusOf ..
@[simp] theorem errBits_busyStatus : errBits busyStatus = 0 := errBits_statusOf ..

/-- R32: while busy the host sees no value of `OLEN`. -/
theorem windowByte_olen_of_busy {s : State} (h : s.busy = true) : windowByte s Config.offOlen = none := by
  simp [windowByte_olen, h]

/-- R32: while busy the host sees no byte of `OBUF`. -/
theorem windowByte_obuf_of_busy {s : State} (h : s.busy = true) {k : Nat} (hk : k < Config.bufSize) :
    windowByte s (Config.offObuf + k) = none := by
  simp [windowByte_obuf s hk, h]

/-- R33: only a write of `CMD` changes `STATUS`, of an idle block only, and it is accepted. -/
theorem hostWrite_status_ne {addr : Nat} {v : Byte} {s : State} (h : (hostWrite addr v s).status ≠ s.status) :
    s.busy = false ∧ addr = Config.offCmd ∧ hostWrite addr v s = accept v s := by
  obtain hw | hw | ⟨-, -, hw⟩ | ⟨-, i, -, -, hw⟩ := hostWrite_cases addr v s
  · exact absurd (congrArg State.status hw) h
  · exact hw
  · exact absurd (congrArg State.status hw) h
  · exact absurd (congrArg State.status hw) h

/-- A turn of the host changes `STATUS` only by the acceptance of a command. -/
theorem hostTurn_status_ne {s t : State} (h : hostTurn s = .next t) (hne : t.status ≠ s.status) :
    s.busy = false ∧ ∃ a l v, s.host.todo = a :: l ∧ IssuesWrite a Config.offCmd v ∧
      t = accept v (s.withTodo l) := by
  obtain ⟨-, rfl⟩ | ⟨a, l, htodo, ⟨addr, v, hissues, rfl⟩ | ⟨-, hsame⟩⟩ := hostTurn_cases h
  · exact absurd rfl hne
  · obtain ⟨hidle, rfl, haccept⟩ := hostWrite_status_ne (s := s.withTodo l) hne
    exact ⟨hidle, a, l, v, htodo, hissues, haccept⟩
  · obtain ⟨-, hstatus, -⟩ := hsame
    exact absurd hstatus hne

/-! ## Completion -/

/-- Every operation answers a completion, with a result that fits `OBUF`. -/
theorem exec_eq_complete (i : Instr) (s : State) :
    ∃ e r, r.length ≤ 52 ∧ exec i s = .next (complete e r s) := by
  obtain ⟨r, hexec, hlen⟩ | ⟨e, -, hexec⟩ := exec_cases i s
  · simp only [List.mem_cons, List.not_mem_nil, or_false] at hlen
    exact ⟨.ok, r, by omega, hexec⟩
  · exact ⟨e, [], Nat.zero_le _, hexec⟩

/-- The turn of a busy block is the completion of the operation `CMD` selects, or of an illegal command
(R18 (b), R53). -/
theorem blockTurn_eq_complete {s : State} (h : s.busy = true) :
    ∃ e r, r.length ≤ 52 ∧ blockTurn s = .next (complete e r s) ∧
      (∀ i, decode s.cmd = .ok i → exec i s = .next (complete e r s)) ∧
      ∀ d, decode s.cmd = .error d → e = .illegalOp ∧ r = [] := by
  obtain ⟨hidle, -⟩ | ⟨-, i, hdec, hturn⟩ | ⟨-, d, hdec, hturn⟩ := blockTurn_cases s
  · simp [h] at hidle
  · obtain ⟨e, r, hlen, hexec⟩ := exec_eq_complete i s
    exact ⟨e, r, hlen, hturn.trans hexec, by simp [hdec, hexec], by simp [hdec]⟩
  · exact ⟨.illegalOp, [], Nat.zero_le _, hturn, by simp [hdec], by simp⟩

/-- A turn of the block changes `STATUS` only by the completion of a busy block. -/
theorem blockTurn_status_ne {s t : State} (h : blockTurn s = .next t) (hne : t.status ≠ s.status) :
    s.busy = true ∧ busyBit t.status = false ∧ doneBit t.status = true := by
  cases hb : s.busy with
  | false =>
    obtain rfl : s = t := by simpa [blockTurn, hb] using h
    exact absurd rfl hne
  | true =>
    obtain ⟨e, r, -, hturn, -⟩ := blockTurn_eq_complete hb
    obtain rfl : complete e r s = t := by simpa [hturn] using h
    simp

/-- R13: after a completion the host reads exactly the result's bytes in `OBUF`. -/
theorem windowByte_obuf_complete (e : ErrCode) (r : List Byte) (s : State) {k : Nat} (hk : k < Config.bufSize) :
    windowByte (complete e r s) (Config.offObuf + k) = r[k]? := by
  simp [windowByte_obuf _ hk]

/-- R15: after a completion the host reads the stored `OLEN`. -/
theorem windowByte_olen_complete (e : ErrCode) (r : List Byte) (s : State) :
    windowByte (complete e r s) Config.offOlen = some (complete e r s).olen := by
  simp [windowByte_olen]

/-- R15: `OLEN` is the number of result bytes. -/
theorem complete_olen_toNat (e : ErrCode) {r : List Byte} (s : State) (h : r.length ≤ 52) :
    (complete e r s).olen.toNat = r.length := by
  simp; omega

/-- R18, R23: no operation reads `STATUS`, `OLEN` or `OBUF`: its input is `IBUF` and `ILEN`, and the completion
overwrites the three. -/
theorem exec_ignores_status_olen_obuf (i : Instr) (s : State) (st ol : Byte) (ob : Memory) :
    exec i { s with status := st, olen := ol, obuf := ob } = exec i s := by
  have hcomplete : ∀ e r, complete e r { s with status := st, olen := ol, obuf := ob } = complete e r s :=
    fun _ _ => rfl
  cases i with
  | pack => exact congrArg Host.Outcome.next (hcomplete ..)
  | unpack => exact congrArg Host.Outcome.next (hcomplete ..)
  | tpldec =>
    cases hdec : tplDecode (s.readIn s.fileLen) with
    | ok p => exact (execTpldec_ok hdec).trans (execTpldec_ok hdec).symm
    | error e => exact (execTpldec_error hdec).trans (execTpldec_error hdec).symm
  | tplenc => exact congrArg Host.Outcome.next (hcomplete ..)
  | pal2bgr => exact congrArg Host.Outcome.next (hcomplete ..)
  | bgr2pal => exact congrArg Host.Outcome.next (hcomplete ..)

/-! ## The statement of R18 -/

/-- R18 (a): a write of `CMD` to an idle block. -/
theorem hostWrite_cmd_starts {s : State} (h : s.busy = false) (v : Byte) :
    busyBit (hostWrite 0x00 v s).status = true ∧ doneBit (hostWrite 0x00 v s).status = false ∧
    errBits (hostWrite 0x00 v s).status = 0 ∧ windowByte (hostWrite 0x00 v s) 0x03 = none ∧
    ∀ k < 52, windowByte (hostWrite 0x00 v s) (0x80 + k) = none := by
  rw [hostWrite_cmd h]
  have hbusy := accept_busy v s
  exact ⟨by simp, by simp, by simp, windowByte_olen_of_busy hbusy, fun k hk => windowByte_obuf_of_busy hbusy hk⟩

/-- R18 (b): the turn of a busy block. -/
theorem blockTurn_completes {s : State} (h : s.busy = true) :
    ∃ (t : State) (e : ErrCode) (r : List Byte), blockTurn s = .next t ∧
      (∀ i, decode s.cmd = .ok i → CompletesWith i s e r) ∧
      (∀ d, decode s.cmd = .error d → e = .illegalOp ∧ r = []) ∧
      (∀ k < 52, windowByte t (0x80 + k) = r[k]?) ∧ windowByte t 0x03 = some t.olen ∧
      t.olen.toNat = r.length ∧ errBits t.status = e.code ∧
      busyBit t.status = false ∧ doneBit t.status = true := by
  obtain ⟨e, r, hlen, hturn, hlegal, hillegal⟩ := blockTurn_eq_complete h
  exact ⟨complete e r s, e, r, hturn, fun i hi => completesWith_of_exec (hlegal i hi) hlen, hillegal,
    fun k hk => windowByte_obuf_complete e r s hk, windowByte_olen_complete e r s,
    complete_olen_toNat e s hlen, by simp, by simp, by simp⟩

/-- R18, "nothing else": by whose turn it is, a step that changes `STATUS` is reset, completion or acceptance. -/
theorem step_status_ne {s t : State} (h : step s = .next t) (hne : t.status ≠ s.status) :
    (nextTurn s = .reset ∧ t.status = 0) ∨
    (nextTurn s = .block ∧ s.busy = true ∧ busyBit t.status = false ∧ doneBit t.status = true) ∨
    (nextTurn s = .host ∧ s.busy = false ∧ ∃ a l v, s.host.todo = a :: l ∧ IssuesWrite a 0x00 v ∧
      t = accept v (s.popTurn.withTodo l) ∧
      busyBit t.status = true ∧ doneBit t.status = false ∧ errBits t.status = 0) := by
  obtain ⟨hhost, hstep⟩ | ⟨hblock, hstep⟩ | ⟨hreset, hstep⟩ := step_cases s
  · obtain ⟨hidle, a, l, v, htodo, hissues, rfl⟩ := hostTurn_status_ne (hstep.symm.trans h) hne
    exact .inr (.inr ⟨hhost, hidle, a, l, v, htodo, hissues, rfl, by simp, by simp, by simp⟩)
  · have hcompletion := blockTurn_status_ne (hstep.symm.trans h) hne
    exact .inr (.inl ⟨hblock, hcompletion⟩)
  · obtain rfl : applyReset s.popTurn = t := by simpa [hstep] using h
    exact .inl ⟨hreset, applyReset_status _⟩

/-- Settles O8: acceptance, completion and reset each as R18 has them, a step that changes `STATUS` taken apart by
whose turn it is, and the operations' independence of what the completion overwrites. -/
theorem statusChangesOnlyAtAcceptanceCompletionReset :
    Obligations.StatusChangesOnlyAtAcceptanceCompletionReset := by
  intro s
  exact ⟨fun v hidle => hostWrite_cmd_starts hidle v, blockTurn_completes, applyReset_status s,
    fun t hstep hne => step_status_ne hstep hne, fun i st ol ob => exec_ignores_status_olen_obuf i s st ol ob⟩

end Sys2Proof.Machine
end

/-! # Proofs about the register window (R32, R33)

What a host read returns and what a host write does at every offset of the map of R31. -/

section
namespace Sys2Proof.Machine

/-! ## Reads -/

/-- R32: `IBUF` stands at 0x40 to 0x73. -/
theorem windowByte_of_mem_ibuf (s : State) {a : Nat} (hlo : 0x40 ≤ a) (hhi : a ≤ 0x73) :
    windowByte s a = Memory.lookup s.ibuf (a - 0x40) := by
  obtain ⟨k, rfl⟩ := Nat.exists_eq_add_of_le hlo
  rw [windowByte_ibuf s (show k < 52 by omega), Nat.add_sub_cancel_left]

/-- R32: `OBUF` stands at 0x80 to 0xB3, hidden while busy. -/
theorem windowByte_of_mem_obuf (s : State) {a : Nat} (hlo : 0x80 ≤ a) (hhi : a ≤ 0xB3) :
    windowByte s a = if s.busy then none else Memory.lookup s.obuf (a - 0x80) := by
  obtain ⟨k, rfl⟩ := Nat.exists_eq_add_of_le hlo
  rw [windowByte_obuf s (show k < 52 by omega), Nat.add_sub_cancel_left]

/-- R32: an offset of the window that the map gives to no register and no buffer reads as 0x00. -/
theorem windowByte_of_unmapped (s : State) {a : Nat}
    (h : (0x04 ≤ a ∧ a ≤ 0x3F) ∨ (0x74 ≤ a ∧ a ≤ 0x7F) ∨ (0xB4 ≤ a ∧ a ≤ 0xFF)) :
    windowByte s a = some 0x00#8 := by
  have hregs : a ≠ 0x00 ∧ a ≠ 0x01 ∧ a ≠ 0x02 ∧ a ≠ 0x03 := by omega
  have hibuf : ¬ (0x40 ≤ a ∧ a < 0x40 + 52) := by omega
  have hobuf : ¬ (0x80 ≤ a ∧ a < 0x80 + 52) := by omega
  have hwindow : a < 256 := by omega
  simp only [windowByte, hregs, hibuf, hobuf, hwindow, if_true, if_false]

/-- R32: a read of a specified byte returns it and leaves the whole state as it is. -/
theorem hostRead_of_some {s : State} {a : Nat} {v : Byte} (h : windowByte s a = some v) :
    hostRead a s = (v, s) := by
  simp [hostRead, h]

/-- R32: no read changes the block, the host or the turns. -/
theorem hostRead_frame (a : Nat) (s : State) :
    SameBlock s (hostRead a s).2 ∧ (hostRead a s).2.host = s.host ∧ (hostRead a s).2.turns = s.turns := by
  obtain ⟨v, -, hread⟩ | ⟨-, hread⟩ := hostRead_cases a s
  · rw [hread]; exact ⟨SameBlock.refl s, rfl, rfl⟩
  · rw [hread]; exact ⟨by simp [SameBlock], draw_host a s, draw_turns a s⟩

/-- R13, R197: under the invariant `OBUF` holds no byte exactly at and beyond `OLEN`. -/
theorem BlockInv.lookup_obuf_eq_none_iff {s : State} (h : BlockInv s) (k : Nat) :
    Memory.lookup s.obuf k = none ↔ s.olen.toNat ≤ k := by
  rw [← Nat.not_lt, ← h.obufDefined k, Option.not_isSome_iff_eq_none]

/-- U2: under the invariant an idle block shows no byte of `OBUF` exactly at and beyond `OLEN`. -/
theorem BlockInv.windowByte_obuf_eq_none_iff {s : State} (h : BlockInv s) (hidle : s.busy = false) {k : Nat}
    (hk : k < 52) : windowByte s (0x80 + k) = none ↔ s.olen.toNat ≤ k := by
  rw [windowByte_obuf s hk, hidle]
  exact h.lookup_obuf_eq_none_iff k

/-- Settles O16: the map of R32 range by range, and the frame of a read. -/
theorem hostReadFollowsTheWindowMap : Obligations.HostReadFollowsTheWindowMap := by
  intro s
  exact ⟨rfl, windowByte_status s, rfl, windowByte_olen s,
    fun _ hlo hhi => windowByte_of_mem_ibuf s hlo hhi, fun _ hlo hhi => windowByte_of_mem_obuf s hlo hhi,
    fun _ h => windowByte_of_unmapped s h, fun _ _ h => hostRead_of_some h,
    fun hinv hidle _ hlen hk => (hinv.windowByte_obuf_eq_none_iff hidle hk).mpr hlen,
    fun a => hostRead_frame a s⟩

/-! ## Writes -/

/-- R33, R34: a write that reaches neither `CMD` nor `ILEN` nor `IBUF` does nothing. -/
theorem hostWrite_of_not_writable {a : Nat} (v : Byte) (s : State) (hcmd : a ≠ 0x00) (hilen : a ≠ 0x02)
    (hibuf : ¬ (0x40 ≤ a ∧ a ≤ 0x73)) : hostWrite a v s = s := by
  obtain hw | ⟨-, ha, -⟩ | ⟨-, ha, -⟩ | ⟨-, i, hi, ha, -⟩ := hostWrite_cases a v s
  · exact hw
  · exact absurd ha hcmd
  · exact absurd ha hilen
  · have hlt : i < 52 := hi
    have hoff : a = 0x40 + i := ha
    exact absurd (by omega) hibuf

/-- R18 (a), R33: a write of `CMD` to an idle block stores the command, sets `BUSY`, clears `DONE` and `ERR`, and
changes nothing but `CMD` and `STATUS`. -/
theorem hostWrite_cmd_effect {s : State} (h : s.busy = false) (v : Byte) :
    (hostWrite 0x00 v s).cmd = v ∧ busyBit (hostWrite 0x00 v s).status = true ∧
    doneBit (hostWrite 0x00 v s).status = false ∧ errBits (hostWrite 0x00 v s).status = 0 ∧
    { hostWrite 0x00 v s with cmd := s.cmd, status := s.status } = s := by
  obtain ⟨hbusy, hdone, herr, -⟩ := hostWrite_cmd_starts h v
  refine ⟨?_, hbusy, hdone, herr, ?_⟩ <;> rw [hostWrite_cmd h] <;> rfl

/-- Settles O17: a busy block ignores every write; an idle one takes `CMD`, `ILEN` and `IBUF` and ignores the rest. -/
theorem hostWriteFollowsTheWindowMap : Obligations.HostWriteFollowsTheWindowMap := by
  intro s v
  exact ⟨fun hbusy a _ => hostWrite_busy hbusy a v,
    fun hidle => ⟨hostWrite_cmd_effect hidle v, hostWrite_ilen hidle v, fun _ hi => hostWrite_ibuf hidle hi v,
      fun _ _ hcmd hilen hibuf => hostWrite_of_not_writable v s hcmd hilen hibuf⟩⟩

end Sys2Proof.Machine
end

/-! # Proofs about the command byte (R50, R51, R53)

The decoder inverts the encoder, which places the six operations at 0x01 to 0x06; on every other byte a busy block
completes with `ILLEGAL_OP`. -/

section
namespace Sys2Proof.Machine

/-! ## The six command bytes -/

@[simp] theorem encode_pack : encode .pack = 0x01#8 := rfl
@[simp] theorem encode_unpack : encode .unpack = 0x02#8 := rfl
@[simp] theorem encode_tpldec : encode .tpldec = 0x03#8 := rfl
@[simp] theorem encode_tplenc : encode .tplenc = 0x04#8 := rfl
@[simp] theorem encode_pal2bgr : encode .pal2bgr = 0x05#8 := rfl
@[simp] theorem encode_bgr2pal : encode .bgr2pal = 0x06#8 := rfl

/-- The law of the command byte (R50, R51), for every instruction. -/
theorem commandByte_statement (i : Instr) : Laws.CommandByte.Statement i := by
  cases i with
  | pack => exact Laws.CommandByte.pack
  | unpack => exact Laws.CommandByte.unpack
  | tpldec => exact Laws.CommandByte.tpldec
  | tplenc => exact Laws.CommandByte.tplenc
  | pal2bgr => exact Laws.CommandByte.pal2bgr
  | bgr2pal => exact Laws.CommandByte.bgr2pal

theorem decode_encode (i : Instr) : decode (encode i) = .ok i := by
  obtain ⟨-, -, -, hdec⟩ := commandByte_statement i
  exact hdec

theorem encode_toNat_mem (i : Instr) : 1 ≤ (encode i).toNat ∧ (encode i).toNat ≤ 6 := by
  obtain ⟨-, hlo, hhi, -⟩ := commandByte_statement i
  exact ⟨hlo, hhi⟩

/-- R50: the two fields make up the whole byte. -/
theorem cmdRsv_append_cmdOp (b : Byte) : cmdRsv b ++ cmdOp b = b :=
  (BitVec.extractLsb'_append_extractLsb'_eq_extractLsb' rfl).trans BitVec.extractLsb'_eq_self

/-- R51: an `OP` value selects only the operation it encodes. -/
theorem eq_encodeOp_of_decodeOp {op : BitVec 3} {i : Instr} (h : decodeOp op = .ok i) : op = encodeOp i := by
  revert op
  cases i <;> decide

/-- R50, R51: a byte that decodes has `RSV = 0` and the `OP` value of the operation. -/
theorem eq_encode_of_decode {b : Byte} {i : Instr} (h : decode b = .ok i) : b = encode i := by
  unfold decode at h
  split at h
  case isTrue hrsv =>
    calc b = cmdRsv b ++ cmdOp b := (cmdRsv_append_cmdOp b).symm
      _ = encode i := by rw [hrsv, eq_encodeOp_of_decodeOp h]; rfl
  case isFalse => cases h

theorem decode_eq_ok_iff (b : Byte) (i : Instr) : decode b = .ok i ↔ b = encode i :=
  ⟨eq_encode_of_decode, fun h => h ▸ decode_encode i⟩

/-- Settles O1: the decoder inverts the encoder, and the encoder's six values are R51's table. -/
theorem commandBytesSelectTheSixOperations : Obligations.CommandBytesSelectTheSixOperations := by
  intro b i
  rw [decode_eq_ok_iff]
  cases i <;> simp

/-! ## The other 250 -/

/-- R53: 0x00 and 0x07 to 0xFF select no operation. -/
theorem decode_ne_ok_of_illegal {b : Byte} (h : b = 0 ∨ 7 ≤ b.toNat) (i : Instr) : decode b ≠ .ok i := by
  intro hdec
  obtain rfl := eq_encode_of_decode hdec
  obtain ⟨hlo, hhi⟩ := encode_toNat_mem i
  obtain hzero | hseven := h
  · simp [hzero] at hlo
  · omega

theorem decodeTableWord_eq_none {n : Nat} (h : ∀ i, decode (BitVec.ofNat 8 n) ≠ .ok i) :
    decodeTableWord 8 n = none := by
  unfold decodeTableWord
  cases hdec : decode (BitVec.ofNat 8 n) with
  | ok i => exact absurd hdec (h i)
  | error d => simp

/-- R53: of the 256 bytes, 0x00 and the 249 from 0x07 on decode to nothing. -/
theorem countP_decodeTableWord_eq_none :
    ((List.range 256).countP fun n => decodeTableWord 8 n == none) = 250 := by
  have hlow : ((List.range 7).countP fun n => decodeTableWord 8 n == none) = 1 := by decide
  have hhigh : (((List.range 249).map (7 + ·)).countP fun n => decodeTableWord 8 n == none) = 249 := by
    rw [List.countP_eq_length.mpr, List.length_map, List.length_range]
    simp only [List.mem_map, List.mem_range, beq_iff_eq, forall_exists_index, and_imp]
    rintro _ k hk rfl
    have hillegal : 7 ≤ (BitVec.ofNat 8 (7 + k)).toNat := by rw [BitVec.toNat_ofNat]; omega
    exact decodeTableWord_eq_none (decode_ne_ok_of_illegal (.inr hillegal))
  rw [List.range_add (n := 7) (m := 249), List.countP_append, hlow, hhigh]

/-- R164: the turn of a busy block whose command selects no operation, whatever `IBUF` and `ILEN` hold. -/
theorem blockTurn_of_illegal {s : State} (hbusy : s.busy = true) (h : ∀ i, decode s.cmd ≠ .ok i) :
    blockTurn s = .next (complete .illegalOp [] s) := by
  obtain ⟨e, r, -, hturn, -, hillegal⟩ := blockTurn_eq_complete hbusy
  cases hdec : decode s.cmd with
  | ok i => exact absurd hdec (h i)
  | error d =>
    obtain ⟨rfl, rfl⟩ := hillegal d hdec
    exact hturn

/-- Settles O3: the bytes outside 0x01 to 0x06 are 250, none decodes, each is accepted as any command is, and the
completion that follows is `ILLEGAL_OP` with an empty result. -/
theorem otherCommandBytesEndInIllegalOp : Obligations.OtherCommandBytesEndInIllegalOp := by
  refine ⟨countP_decodeTableWord_eq_none, fun b hb => ⟨decode_ne_ok_of_illegal hb, fun s hidle => ?_,
    fun s hbusy hcmd => ?_⟩⟩
  · obtain ⟨hstored, hstarted, -⟩ := hostWrite_cmd_effect hidle b
    exact ⟨hstored, hstarted⟩
  · subst hcmd
    exact ⟨_, blockTurn_of_illegal hbusy (decode_ne_ok_of_illegal hb), by simp, by simp, by simp [ErrCode.code],
      by simp, fun _ => rfl, by simp, by simp, by simp⟩

end Sys2Proof.Machine
end

/-! # Proofs about the BGR15 converter (R70 to R75)

The pure functions as bit fields, and the two operations as completions with the bytes those functions give. -/

section
namespace Sys2Proof.Machine

/-! ## The scaling of a channel -/

/-- R70 in its bit form: dividing by 8 keeps bits 7:3. -/
theorem scale8to5_eq_extractLsb' (c : Byte) : scale8to5 c = c.extractLsb' 3 5 := by
  simp [scale8to5, BitVec.extractLsb', Nat.shiftRight_eq_div_pow]

/-- The concatenation of two bit vectors, as a number. -/
theorem toNat_append_eq_add {m n : Nat} (x : BitVec m) (y : BitVec n) :
    (x ++ y).toNat = x.toNat * 2 ^ n + y.toNat := by
  rw [BitVec.toNat_append, ← Nat.shiftLeft_add_eq_or_of_lt y.isLt, Nat.shiftLeft_eq]

/-- R73 in its bit form: multiplying by 8 appends three zero bits. -/
theorem scale5to8_eq_append (c : Chan5) : scale5to8 c = c ++ 0b000#3 := by
  apply BitVec.eq_of_toNat_eq
  rw [scale5to8_toNat, toNat_append_eq_add]
  rfl

/-- Settles O29: the quotient by 8 is a 5-bit value, and its bits are the top five of the channel. -/
theorem scale8to5IsTheTopFiveBits : Obligations.Scale8to5IsTheTopFiveBits := fun c =>
  ⟨scale8to5_toNat c, scale8to5_eq_extractLsb' c, Nat.le_of_lt_succ (scale8to5 c).isLt⟩

/-- Settles O30: 31 * 8 = 248 still fits a byte, so the product is exact. -/
theorem scale5to8IsTimesEight : Obligations.Scale5to8IsTimesEight := by
  refine fun c => ⟨scale5to8_toNat c, scale5to8_eq_append c, ?_⟩
  have hc := c.isLt
  rw [scale5to8_toNat]
  omega

/-! ## Packing and unpacking -/

/-- R71: the three terms of the sum do not overlap. -/
theorem pack15_eq_append (c : Color) :
    pack15 c = 0b0#1 ++ c.b.extractLsb' 3 5 ++ c.g.extractLsb' 3 5 ++ c.r.extractLsb' 3 5 := by
  apply BitVec.eq_of_toNat_eq
  simp only [← scale8to5_eq_extractLsb', toNat_append_eq_add, pack15_toNat, scale8to5_toNat, BitVec.toNat_ofNat]
  omega

theorem pack15_toNat_le (c : Color) : (pack15 c).toNat ≤ 32767 := by
  have hr := c.r.isLt
  have hg := c.g.isLt
  have hb := c.b.isLt
  rw [pack15_toNat]
  omega

/-- Settles O31: bit 15 is zero because the word is below `2 ^ 15`. -/
theorem pack15IsTheConcatenation : Obligations.Pack15IsTheConcatenation := fun c =>
  ⟨pack15_toNat c, pack15_eq_append c, pack15_toNat_le c,
    Nat.testBit_lt_two_pow (Nat.lt_succ_of_le (pack15_toNat_le c))⟩

/-- R74 in its bit form: a field of five bits of the word, scaled. -/
theorem scale5to8_div_mod_eq (w : Word16) (k : Nat) :
    scale5to8 (BitVec.ofNat 5 (w.toNat / 2 ^ k % 32)) = w.extractLsb' k 5 ++ 0b000#3 := by
  have hfield : BitVec.ofNat 5 (w.toNat / 2 ^ k % 32) = w.extractLsb' k 5 := by
    simp [BitVec.extractLsb', Nat.shiftRight_eq_div_pow, ← BitVec.toNat_inj]
  rw [hfield, scale5to8_eq_append]

/-- R74: the three fields, each followed by three zero bits. -/
theorem unpack15_eq_append (w : Word16) :
    unpack15 w = ⟨w.extractLsb' 0 5 ++ 0b000#3, w.extractLsb' 5 5 ++ 0b000#3, w.extractLsb' 10 5 ++ 0b000#3⟩ := by
  simp only [← scale5to8_div_mod_eq, unpack15, Nat.pow_zero, Nat.div_one]
  rfl

/-- R74: bit 15 takes part in none of the three fields. -/
theorem unpack15_mod_32768 (w : Word16) : unpack15 (BitVec.ofNat 16 (w.toNat % 32768)) = unpack15 w := by
  have hlow : (BitVec.ofNat 16 (w.toNat % 32768)).toNat = w.toNat % 32768 := by
    rw [BitVec.toNat_ofNat]; omega
  apply color_ext
  · rw [unpack15_r_toNat, unpack15_r_toNat, hlow]; omega
  · rw [unpack15_g_toNat, unpack15_g_toNat, hlow]; omega
  · rw [unpack15_b_toNat, unpack15_b_toNat, hlow]; omega

/-- Settles O32: each channel as a number and as a field, and a word and its low 15 bits have the same channels. -/
theorem unpack15ExtractsTheFieldsAndIgnoresBit15 : Obligations.Unpack15ExtractsTheFieldsAndIgnoresBit15 := by
  intro w
  obtain ⟨hr, hg, hb⟩ := (Color.mk.injEq ..).mp (unpack15_eq_append w)
  exact ⟨unpack15_r_toNat w, unpack15_g_toNat w, unpack15_b_toNat w, hr, hg, hb, (unpack15_mod_32768 w).symm⟩

/-! ## The operations PACK and UNPACK -/

/-- R36: the two bytes of a word, as numbers. -/
theorem wordBytes_eq_ofNat (w : Word16) :
    wordBytes w = [BitVec.ofNat 8 (w.toNat % 256), BitVec.ofNat 8 (w.toNat / 256)] := by
  simp [wordBytes, ← loByte_toNat, ← hiByte_toNat]

/-- A color is written as the numbers of its channels. -/
theorem colorBytes_eq_ofNat (c : Color) :
    colorBytes c = [BitVec.ofNat 8 c.r.toNat, BitVec.ofNat 8 c.g.toNat, BitVec.ofNat 8 c.b.toNat] := by
  simp [colorBytes]

/-- R72: PACK reads `IBUF[0..2]` and no other input. -/
theorem completesWith_pack (s : State) :
    CompletesWith .pack s .ok (wordBytes (pack15 ⟨s.ibufByte 0, s.ibufByte 1, s.ibufByte 2⟩)) :=
  completesWith_of_exec rfl (by simp)

/-- R75: UNPACK reads `IBUF[0..1]` and no other input. -/
theorem completesWith_unpack (s : State) :
    CompletesWith .unpack s .ok (colorBytes (unpack15 (le16 (s.ibufByte 0) (s.ibufByte 1)))) :=
  completesWith_of_exec rfl (by simp)

/-- Settles O21: the word has 15 bits, so its high byte is at most 0x7F. -/
theorem packStoresTheBgr15Word : Obligations.PackStoresTheBgr15Word := by
  intro s
  have hword := pack15_toNat ⟨s.ibufByte 0, s.ibufByte 1, s.ibufByte 2⟩
  have hle := pack15_toNat_le ⟨s.ibufByte 0, s.ibufByte 1, s.ibufByte 2⟩
  have hdone := completesWith_pack s
  rw [wordBytes_eq_ofNat, hword] at hdone
  rw [hword] at hle
  exact ⟨decode_encode .pack, hdone, Nat.div_le_div_right (c := 256) hle⟩

/-- Settles O22: UNPACK writes the channels of `unpack15` of the little-endian word, each as the number R74 gives. -/
theorem unpackStoresTheRgbTriple : Obligations.UnpackStoresTheRgbTriple := by
  intro s
  have hdone := completesWith_unpack s
  rw [colorBytes_eq_ofNat, unpack15_r_toNat, unpack15_g_toNat, unpack15_b_toNat, le16_toNat] at hdone
  exact ⟨decode_encode .unpack, hdone⟩

end Sys2Proof.Machine
end

/-! # Proofs about the TPL file codec (R90 to R95)

The magic validator and the two pure functions byte by byte, then TPLDEC and TPLENC as completions with what those
functions give on `IBUF`. -/

section
namespace Sys2Proof.Machine

/-! ## The magic validator -/

/-- R92: comparing the first four bytes with the magic says that they are there and what each one is. -/
theorem headerValid_iff (bytes : List Byte) : headerValid bytes = true ↔
    4 ≤ bytes.length ∧ bytes[0]? = some 0x54#8 ∧ bytes[1]? = some 0x50#8 ∧ bytes[2]? = some 0x4C#8 ∧
      bytes[3]? = some 0x00#8 := by
  match bytes with
  | [] | [_] | [_, _] | [_, _, _] => simp [headerValid, Config.magic]
  | b₀ :: b₁ :: b₂ :: b₃ :: rest => simp [headerValid, Config.magic]

/-- R92, in the block: bytes of `IBUF` beyond the length read take no part in the comparison. -/
theorem headerValid_readIn_iff (s : State) (n : Nat) : headerValid (s.readIn n) = true ↔
    4 ≤ n ∧ s.ibufByte 0 = 0x54#8 ∧ s.ibufByte 1 = 0x50#8 ∧ s.ibufByte 2 = 0x4C#8 ∧ s.ibufByte 3 = 0x00#8 := by
  rw [headerValid_iff, readIn_length]
  refine and_congr_right fun hn => ?_
  simp (disch := omega) only [readIn_getElem?, Option.some.injEq]

/-- R14: the 52 bytes the block can read never cut a header short. -/
theorem headerValid_file_iff (s : State) : headerValid (s.readIn s.fileLen) = true ↔
    4 ≤ s.ilen.toNat ∧ s.ibufByte 0 = 0x54#8 ∧ s.ibufByte 1 = 0x50#8 ∧ s.ibufByte 2 = 0x4C#8 ∧
      s.ibufByte 3 = 0x00#8 := by
  have hlen : 4 ≤ s.fileLen ↔ 4 ≤ s.ilen.toNat := by simp [State.fileLen, Config.tplLen]
  rw [headerValid_readIn_iff, hlen]

/-- Settles O36: the validator on a byte sequence, and on the file in `IBUF`. -/
theorem headerIsValidExactlyOnTheMagic : Obligations.HeaderIsValidExactlyOnTheMagic :=
  ⟨headerValid_iff, headerValid_file_iff⟩

/-! ## Decoding -/

/-- R90: bytes 4 to 51 of a sequence that has them, by index. -/
theorem payload_eq_iff {bytes : List Byte} (h : 52 ≤ bytes.length) (p : List Byte) :
    (bytes.drop 4).take 48 = p ↔ p.length = 48 ∧ ∀ j < 48, p[j]? = bytes[4 + j]? := by
  constructor
  · rintro rfl
    exact ⟨by simp; omega, fun j hj => by rw [List.getElem?_take_of_lt hj, List.getElem?_drop]⟩
  · rintro ⟨hlen, hbyte⟩
    refine List.ext_getElem? fun j => ?_
    rw [List.getElem?_take, List.getElem?_drop]
    split
    case isTrue hj => exact (hbyte j hj).symm
    case isFalse hj => exact (List.getElem?_eq_none (by omega)).symm

theorem tplDecode_eq_invalidHeader_iff (bytes : List Byte) :
    tplDecode bytes = .error .invalidHeader ↔ headerValid bytes = false := by
  obtain ⟨hv, hd⟩ | ⟨hv, -, hd⟩ | ⟨hv, -, hd⟩ := tplDecode_cases bytes <;> simp [hv, hd]

theorem tplDecode_eq_truncatedFile_iff (bytes : List Byte) :
    tplDecode bytes = .error .truncatedFile ↔ headerValid bytes = true ∧ bytes.length < 52 := by
  obtain ⟨hv, hd⟩ | ⟨hv, hl, hd⟩ | ⟨hv, hl, hd⟩ := tplDecode_cases bytes
  · simp [hv, hd]
  · simp [hv, hd, hl]
  · simp [hv, hd, hl]

/-- R90, R93: decoding succeeds exactly on a valid header with 52 bytes or more, and only with the payload. -/
theorem tplDecode_eq_ok_iff (bytes p : List Byte) : tplDecode bytes = .ok p ↔
    headerValid bytes = true ∧ 52 ≤ bytes.length ∧ p.length = 48 ∧ ∀ j < 48, p[j]? = bytes[4 + j]? := by
  obtain ⟨hv, hd⟩ | ⟨hv, hl, hd⟩ | ⟨hv, hl, hd⟩ := tplDecode_cases bytes
  · simp [hv, hd]
  · simp [hv, hd, Nat.not_le.mpr hl]
  · rw [hd, Result.ok.injEq, payload_eq_iff hl]
    simp [hv, hl]

/-- R98: `ILLEGAL_OP` is no outcome of decoding. -/
theorem tplDecode_ne_illegalOp (bytes : List Byte) : tplDecode bytes ≠ .error .illegalOp := by
  obtain ⟨-, hd⟩ | ⟨-, -, hd⟩ | ⟨-, -, hd⟩ := tplDecode_cases bytes <;> simp [hd]

/-- Settles O37: each of the three outcomes has its class of inputs, and no other error occurs. -/
theorem tplDecodeHasThreeClasses : Obligations.TplDecodeHasThreeClasses := fun bytes =>
  ⟨tplDecode_eq_invalidHeader_iff bytes, tplDecode_eq_truncatedFile_iff bytes, tplDecode_eq_ok_iff bytes,
    fun h => tplDecode_error_ne_ok h rfl, tplDecode_ne_illegalOp bytes⟩

/-! ## Encoding -/

/-- R94: the palette's bytes follow the four of the magic, in order. -/
theorem tplEncode_getElem? (p : List Byte) (j : Nat) : (tplEncode p)[4 + j]? = p[j]? := by
  rw [tplEncode, List.getElem?_append_right (Nat.le_add_right 4 j)]
  exact congrArg (p[·]?) (Nat.add_sub_cancel_left 4 j)

/-- Settles O40: the file is the magic with the palette appended. -/
theorem tplEncodeLaysOutTheFile : Obligations.TplEncodeLaysOutTheFile := fun p hp =>
  ⟨by rw [tplEncode_length, hp], List.take_left' rfl, fun j _ => tplEncode_getElem? p j⟩

/-! ## The operations TPLDEC and TPLENC -/

theorem completesWith_tpldec_of_error {s : State} {e : ErrCode}
    (h : tplDecode (s.readIn s.fileLen) = .error e) : CompletesWith .tpldec s e [] :=
  completesWith_of_exec (execTpldec_error h) (Nat.zero_le _)

theorem completesWith_tpldec_of_ok {s : State} {p : List Byte}
    (h : tplDecode (s.readIn s.fileLen) = .ok p) : CompletesWith .tpldec s .ok p :=
  completesWith_of_exec (execTpldec_ok h) (by rw [tplDecode_ok_length h]; decide)

/-- R91: with a valid header and `ILEN` at least 52, the file in `IBUF` decodes to `IBUF[4..51]`. -/
theorem tplDecode_file_eq_ok {s : State} (hv : headerValid (s.readIn s.fileLen) = true)
    (hlen : 52 ≤ s.ilen.toNat) :
    tplDecode (s.readIn s.fileLen) = .ok ((List.range 48).map fun j => s.ibufByte (4 + j)) := by
  have hfile : s.fileLen = 52 := Nat.min_eq_right hlen
  rw [tplDecode_eq_ok_iff, readIn_length]
  refine ⟨hv, hfile.ge, by simp, fun j hj => ?_⟩
  rw [readIn_getElem? s (by omega)]
  simp [hj]

/-- Settles O23: the three classes of `tpl_decode`, on the file that `ILEN` and `IBUF` hold. -/
theorem tpldecChecksHeaderThenLength : Obligations.TpldecChecksHeaderThenLength := by
  intro s
  dsimp only
  rw [← headerValid_file_iff]
  refine ⟨decode_encode .tpldec, fun hv => ?_, fun hv hlen => ?_, fun hv hlen => ?_⟩
  · exact completesWith_tpldec_of_error ((tplDecode_eq_invalidHeader_iff _).mpr (Bool.eq_false_of_not_eq_true hv))
  · have hshort : (s.readIn s.fileLen).length < 52 := by
      rw [readIn_length]; exact Nat.lt_of_le_of_lt (Nat.min_le_left _ _) hlen
    exact completesWith_tpldec_of_error ((tplDecode_eq_truncatedFile_iff _).mpr ⟨hv, hshort⟩)
  · exact completesWith_tpldec_of_ok (tplDecode_file_eq_ok hv hlen)

/-- R95: TPLENC reads `IBUF[0..47]` and no other input. -/
theorem completesWith_tplenc (s : State) : CompletesWith .tplenc s .ok (tplEncode (s.readIn 48)) :=
  completesWith_of_exec rfl (by rw [tplEncode_length, readIn_length])

/-- Settles O24: the file TPLENC writes is the magic, then the palette in `IBUF`. -/
theorem tplencStoresMagicThenPalette : Obligations.TplencStoresMagicThenPalette := fun s =>
  ⟨decode_encode .tplenc, completesWith_tplenc s⟩

end Sys2Proof.Machine
end

/-! # Proofs about the palette conversions (R110 to R116)

Words, colors and result bytes by index, then the two pure functions, then PAL2BGR and BGR2PAL as completions with
what those functions give on `IBUF`. -/

section
namespace Sys2Proof.Machine

/-! ## Words and colors by index -/

/-- R112, R116: word `i` is there exactly if both of its bytes are. -/
theorem wordsOf_getElem? : ∀ (s : List Byte) (i : Nat),
    (wordsOf s)[i]? = s[2 * i]?.bind fun lo => s[2 * i + 1]?.map fun hi => le16 lo hi
  | [], _ => by simp [wordsOf]
  | [_], 0 => rfl
  | [_], i + 1 => by simp [wordsOf, Nat.mul_succ]
  | _ :: _ :: _, 0 => rfl
  | _ :: _ :: rest, i + 1 => by simpa [wordsOf, Nat.mul_succ] using wordsOf_getElem? rest i

/-- R57: color `i` is there exactly if all three of its bytes are. -/
theorem colorsOf_getElem? : ∀ (p : List Byte) (i : Nat),
    (colorsOf p)[i]? = p[3 * i]?.bind fun r => p[3 * i + 1]?.bind fun g => p[3 * i + 2]?.map fun b => ⟨r, g, b⟩
  | [], _ => by simp [colorsOf]
  | [_], 0 | [_, _], 0 => rfl
  | [_], i + 1 | [_, _], i + 1 => by simp [colorsOf, Nat.mul_succ]
  | _ :: _ :: _ :: _, 0 => rfl
  | _ :: _ :: _ :: rest, i + 1 => by simpa [colorsOf, Nat.mul_succ] using colorsOf_getElem? rest i

/-- Settles O42: pairing the bytes from the front puts word `i` at bytes `2i` and `2i + 1`. -/
theorem wordAssemblyByIndex : Obligations.WordAssemblyByIndex := fun s =>
  ⟨wordsOf_length s, fun i lo hi hlo hhi => by simp [wordsOf_getElem?, hlo, hhi]⟩

/-! ## Result bytes by index -/

/-- Where every element gives `k` bytes, byte `j` of block `i` is byte `j` of what element `i` gives. -/
theorem getElem?_flatMap_of_length_eq {α β : Type} {f : α → List β} {k : Nat} (hf : ∀ a, (f a).length = k)
    (l : List α) (i : Nat) {j : Nat} (hj : j < k) :
    (l.flatMap f)[k * i + j]? = l[i]?.bind fun a => (f a)[j]? := by
  induction l generalizing i with
  | nil => simp
  | cons a l ih =>
    rw [List.flatMap_cons]
    cases i with
    | zero => simp [List.getElem?_append_left, hf, hj]
    | succ i =>
      have hshift : k * (i + 1) + j - k = k * i + j := by rw [Nat.mul_succ]; omega
      have hskip : (f a).length ≤ k * (i + 1) + j := by rw [hf, Nat.mul_succ]; omega
      rw [List.getElem?_append_right hskip, hf, hshift, ih, List.getElem?_cons_succ]

/-- R110: byte `j` of word `i` of the result comes from color `i`. -/
theorem palToBgr_getElem? (p : List Byte) (i : Nat) {j : Nat} (hj : j < 2) :
    (palToBgr p)[2 * i + j]? = (colorsOf p)[i]?.bind fun c => (wordBytes (pack15 c))[j]? :=
  getElem?_flatMap_of_length_eq (fun _ => wordBytes_length _) _ i hj

/-- R57: byte `j` of entry `i` of a palette comes from color `i`. -/
theorem paletteBytes_getElem? (cs : List Color) (i : Nat) {j : Nat} (hj : j < 3) :
    (paletteBytes cs)[3 * i + j]? = cs[i]?.bind fun c => (colorBytes c)[j]? :=
  getElem?_flatMap_of_length_eq colorBytes_length _ i hj

/-- Settles O41: color `i` of the palette is packed into bytes `2i` and `2i + 1`. -/
theorem palToBgrByIndex : Obligations.PalToBgrByIndex := by
  intro p hp
  refine ⟨by rw [palToBgr_length, hp], fun i _ r g b hr hg hb => ?_⟩
  have hcolor : (colorsOf p)[i]? = some ⟨r, g, b⟩ := by simp [colorsOf_getElem?, hr, hg, hb]
  have hbyte (j : Nat) (hj : j < 2) : (palToBgr p)[2 * i + j]? = (wordBytes (pack15 ⟨r, g, b⟩))[j]? := by
    rw [palToBgr_getElem? p i hj, hcolor]; rfl
  exact ⟨hbyte 0 (by decide), hbyte 1 (by decide)⟩

/-! ## Decoded entries, then black -/

/-- Entry `i` of the palette of a stream (R113): word `i` unpacked, or, where the stream has no word `i`, black. -/
def bgrEntry (s : List Byte) (i : Nat) : Color := ((wordsOf s)[i]?.map unpack15).getD Config.pad

theorem bgrEntry_of_word {s : List Byte} {i : Nat} {w : Word16} (h : (wordsOf s)[i]? = some w) :
    bgrEntry s i = unpack15 w := by simp [bgrEntry, h]

theorem bgrEntry_of_length_le {s : List Byte} {i : Nat} (h : s.length / 2 ≤ i) : bgrEntry s i = Config.pad := by
  simp [bgrEntry, wordsOf_length, h]

/-- R115: entry `i` of a padded palette is the color there is, or black. -/
theorem padPalette_getElem? (cs : List Color) {i : Nat} (hi : i < 16) :
    (padPalette cs)[i]? = some (cs[i]?.getD Config.pad) := by
  by_cases hlen : i < cs.length
  · rw [padPalette, List.getElem?_append_left hlen]
    simp [hlen]
  · have hpad : i - cs.length < Config.nCol - cs.length := by simp only [Config.nCol]; omega
    rw [padPalette, List.getElem?_append_right (Nat.le_of_not_lt hlen), List.getElem?_replicate_of_lt hpad]
    simp [Nat.le_of_not_lt hlen]

theorem bgrColors_getElem? (s : List Byte) {i : Nat} (hi : i < 16) : (bgrColors s)[i]? = some (bgrEntry s i) := by
  rw [bgrColors, padPalette_getElem? _ hi, List.getElem?_map, List.getElem?_take_of_lt hi, bgrEntry]

/-- R113: the 16 colors are the entries 0 to 15, in order. -/
theorem bgrColors_eq_map_bgrEntry (s : List Byte) : bgrColors s = (List.range 16).map (bgrEntry s) := by
  have hlen : (bgrColors s).length = 16 := bgrColors_length s
  refine List.ext_getElem? fun i => ?_
  by_cases hi : i < 16
  · simp [bgrColors_getElem? s hi, hi]
  · rw [List.getElem?_eq_none (by omega), List.getElem?_eq_none (by simp; omega)]

/-- R113: the result, entry by entry. -/
theorem bgrToPal_eq_flatMap (s : List Byte) :
    bgrToPal s = (List.range 16).flatMap fun i => colorBytes (bgrEntry s i) := by
  rw [bgrToPal, bgrColors_eq_map_bgrEntry, paletteBytes, List.flatMap_map]

/-- R113: byte `j` of entry `i` of the result. -/
theorem bgrToPal_getElem? (s : List Byte) {i j : Nat} (hi : i < 16) (hj : j < 3) :
    (bgrToPal s)[3 * i + j]? = (colorBytes (bgrEntry s i))[j]? := by
  rw [bgrToPal, paletteBytes_getElem? _ i hj, bgrColors_getElem? s hi, Option.bind_some]

/-- Settles O43: below `k` an entry is its word unpacked, from `k` on it is black. -/
theorem bgrToPalByIndex : Obligations.BgrToPalByIndex := by
  intro s
  refine ⟨bgrToPal_length s, fun i hi w hw => ?_, fun i hk hi => ?_⟩
  · have hbyte (j : Nat) (hj : j < 3) : (bgrToPal s)[3 * i + j]? = (colorBytes (unpack15 w))[j]? := by
      rw [bgrToPal_getElem? s (by omega) hj, bgrEntry_of_word hw]
    exact ⟨hbyte 0 (by decide), hbyte 1 (by decide), hbyte 2 (by decide)⟩
  · have hbyte (j : Nat) (hj : j < 3) : (bgrToPal s)[3 * i + j]? = (colorBytes Config.pad)[j]? := by
      rw [bgrToPal_getElem? s hi hj, bgrEntry_of_length_le (by omega)]
    exact ⟨hbyte 0 (by decide), hbyte 1 (by decide), hbyte 2 (by decide)⟩

/-! ## Truncation, padding and the odd last byte -/

/-- The first `n` words are those of the first `2n` bytes. -/
theorem wordsOf_take : ∀ (n : Nat) (s : List Byte), wordsOf (s.take (2 * n)) = (wordsOf s).take n
  | 0, _ => rfl
  | _ + 1, [] | _ + 1, [_] => rfl
  | n + 1, _ :: _ :: rest => by simpa [wordsOf, Nat.mul_succ] using wordsOf_take n rest

/-- R116: a byte after complete pairs forms no word. -/
theorem wordsOf_append_singleton :
    ∀ {s : List Byte}, s.length % 2 = 0 → ∀ b : Byte, wordsOf (s ++ [b]) = wordsOf s
  | [], _, _ => rfl
  | [_], h, _ => by simp at h
  | _ :: _ :: rest, h, b => by
    have hrest : rest.length % 2 = 0 := by simpa [Nat.add_assoc] using h
    simp [wordsOf, wordsOf_append_singleton hrest b]

theorem bgrToPal_eq_of_take_wordsOf_eq {s r : List Byte} (h : (wordsOf s).take 16 = (wordsOf r).take 16) :
    bgrToPal s = bgrToPal r := by
  simp only [bgrToPal, bgrColors, Config.nCol, h]

theorem paletteBytes_append (cs ds : List Color) : paletteBytes (cs ++ ds) = paletteBytes cs ++ paletteBytes ds :=
  List.flatMap_append

/-- Black entries are zero bytes. -/
theorem paletteBytes_replicate_pad (n : Nat) :
    paletteBytes (List.replicate n Config.pad) = List.replicate (3 * n) 0 := by
  induction n with
  | zero => rfl
  | succ n ih =>
    calc paletteBytes (List.replicate (n + 1) Config.pad)
        = List.replicate 3 0 ++ paletteBytes (List.replicate n Config.pad) := rfl
      _ = List.replicate (3 * (n + 1)) 0 := by rw [ih, List.replicate_append_replicate]; congr 1; omega

/-- R115: with at most 16 words all are decoded and zero bytes follow. -/
theorem bgrToPal_of_short {s : List Byte} (h : s.length / 2 ≤ 16) :
    bgrToPal s = paletteBytes ((wordsOf s).map unpack15) ++ List.replicate (48 - 3 * (s.length / 2)) 0 := by
  have hall : (wordsOf s).take Config.nCol = wordsOf s := List.take_of_length_le (by rwa [wordsOf_length])
  rw [bgrToPal, bgrColors, hall, padPalette, paletteBytes_append, paletteBytes_replicate_pad, List.length_map,
    wordsOf_length, Nat.mul_sub 3 16]

/-- Settles O44: the result is a function of the first 16 words, and they decide truncation and the odd byte. -/
theorem streamsAreTruncatedAndOddBytesDiscarded : Obligations.StreamsAreTruncatedAndOddBytesDiscarded :=
  ⟨fun s => bgrToPal_eq_of_take_wordsOf_eq (by rw [wordsOf_take 16 s, List.take_take, Nat.min_self]),
    fun _ h => bgrToPal_of_short h,
    fun _ b h => bgrToPal_eq_of_take_wordsOf_eq (by rw [wordsOf_append_singleton h b]),
    bgrToPal_of_short (s := []) (Nat.zero_le _)⟩

/-! ## The operations PAL2BGR and BGR2PAL -/

/-- R114: word `i` of the bytes read from `IBUF`. -/
theorem wordsOf_readIn_getElem? (s : State) {n i : Nat} (h : i < n / 2) :
    (wordsOf (s.readIn n))[i]? = some (le16 (s.ibufByte (2 * i)) (s.ibufByte (2 * i + 1))) := by
  rw [wordsOf_getElem?, readIn_getElem? s (by omega), readIn_getElem? s (by omega)]; rfl

/-- R111: the colors of the palette in `IBUF`. -/
theorem colorsOf_readIn (s : State) (n : Nat) : colorsOf (s.readIn (3 * n)) =
    (List.range n).map fun i => ⟨s.ibufByte (3 * i), s.ibufByte (3 * i + 1), s.ibufByte (3 * i + 2)⟩ := by
  have hlen : (colorsOf (s.readIn (3 * n))).length = n := by rw [colorsOf_length, readIn_length]; omega
  refine List.ext_getElem? fun i => ?_
  by_cases hi : i < n
  · rw [colorsOf_getElem?, readIn_getElem? s (by omega), readIn_getElem? s (by omega), readIn_getElem? s (by omega)]
    simp [hi]
  · rw [List.getElem?_eq_none (by omega), List.getElem?_eq_none (by simp; omega)]

/-- R111: PAL2BGR reads `IBUF[0..47]` and no other input. -/
theorem completesWith_pal2bgr (s : State) : CompletesWith .pal2bgr s .ok (palToBgr (s.readIn 48)) :=
  completesWith_of_exec rfl (by rw [palToBgr_length, readIn_length]; decide)

/-- R114: BGR2PAL reads `ILEN` and that many bytes of `IBUF`, at most 32. -/
theorem completesWith_bgr2pal (s : State) : CompletesWith .bgr2pal s .ok (bgrToPal (s.readIn s.streamLen)) :=
  completesWith_of_exec rfl (by rw [bgrToPal_length]; decide)

/-- Settles O25: the palette in `IBUF` has the 16 colors, and each is packed on its own. -/
theorem pal2bgrPacksEveryEntry : Obligations.Pal2bgrPacksEveryEntry := by
  intro s
  have hdone := completesWith_pal2bgr s
  rw [palToBgr, colorsOf_readIn s 16, List.flatMap_map] at hdone
  simp only [wordBytes_eq_ofNat] at hdone
  exact ⟨decode_encode .pal2bgr, hdone⟩

/-- R112: a word as the number its bytes give. -/
theorem le16_eq_ofNat (lo hi : Byte) : le16 lo hi = BitVec.ofNat 16 (hi.toNat * 256 + lo.toNat) := by
  rw [← le16_toNat, BitVec.ofNat_toNat, BitVec.setWidth_eq]

/-- R114: the stream in `IBUF` has `min(16, floor(ILEN / 2))` words; entry `i` is word `i` unpacked or black. -/
theorem bgrEntry_stream (s : State) (i : Nat) : bgrEntry (s.readIn s.streamLen) i =
    if i < min 16 (s.ilen.toNat / 2) then unpack15 (le16 (s.ibufByte (2 * i)) (s.ibufByte (2 * i + 1)))
    else Config.pad := by
  have hwords : s.streamLen / 2 = min 16 (s.ilen.toNat / 2) := by simp only [State.streamLen, Config.bgrBytes]; omega
  split
  case isTrue hi => exact bgrEntry_of_word (wordsOf_readIn_getElem? s (by omega))
  case isFalse hi => exact bgrEntry_of_length_le (by rw [readIn_length]; omega)

/-- Settles O26: the words `ILEN` gives are unpacked, and the entries after them are black. -/
theorem bgr2palUnpacksWordsThenPads : Obligations.Bgr2palUnpacksWordsThenPads := by
  intro s
  have hdone := completesWith_bgr2pal s
  simp only [bgrToPal_eq_flatMap, bgrEntry_stream, apply_ite colorBytes, le16_eq_ofNat] at hdone
  exact ⟨decode_encode .bgr2pal, hdone⟩

end Sys2Proof.Machine
end

/-! # Proofs about HexColor (R131, R132, R134)

A digit, a pair of digits, then the whole string, each characterised by when it has a value; then the color of three
integer channels. -/

section
namespace Sys2Proof.Machine

/-! ## Hexadecimal digits and pairs -/

/-- R134: the three ranges of digits and the value of each digit. -/
theorem hexDigit_eq_some_iff (ch : Char) (x : Nat) : hexDigit ch = some x ↔
    ('0'.toNat ≤ ch.toNat ∧ ch.toNat ≤ '9'.toNat ∧ x = ch.toNat - '0'.toNat) ∨
    ('a'.toNat ≤ ch.toNat ∧ ch.toNat ≤ 'f'.toNat ∧ x = ch.toNat - 'a'.toNat + 10) ∨
    ('A'.toNat ≤ ch.toNat ∧ ch.toNat ≤ 'F'.toNat ∧ x = ch.toNat - 'A'.toNat + 10) := by
  simp only [hexDigit, Char.reduceToNat]
  split_ifs
  case neg => rw [false_iff]; omega
  all_goals rw [Option.some.injEq]; omega

theorem hexDigit_lt {ch : Char} {x : Nat} (h : hexDigit ch = some x) : x < 16 := by
  rw [hexDigit_eq_some_iff] at h
  simp only [Char.reduceToNat] at h
  omega

/-- R134: a pair has a value exactly if both characters are digits, and the value fits a byte. -/
theorem hexPair_eq_some_iff (x y : Char) (v : Byte) : hexPair x y = some v ↔
    ∃ a b, hexDigit x = some a ∧ hexDigit y = some b ∧ v.toNat = 16 * a + b := by
  unfold hexPair
  split
  case h_1 a b ha hb =>
    have hlt : 16 * a + b < 256 := by have := hexDigit_lt ha; have := hexDigit_lt hb; omega
    simp [ha, hb, ← BitVec.toNat_inj, Nat.mod_eq_of_lt hlt, eq_comm]
  case h_2 hnone => simpa using fun a ha b hb => (hnone a b ha hb).elim

/-! ## Strings -/

/-- R131: a string parses exactly if it is three pairs that have values, which are the channels. -/
theorem parseHexColor_eq_ok_iff (t : List Char) (c : Color) : parseHexColor t = .ok c ↔
    ∃ a b d e f g, t = [a, b, d, e, f, g] ∧
      hexPair a b = some c.r ∧ hexPair d e = some c.g ∧ hexPair f g = some c.b := by
  constructor
  · intro h
    unfold parseHexColor at h
    split at h
    case h_1 a b d e f g =>
      split at h
      case h_1 hr hg hb =>
        cases h
        exact ⟨a, b, d, e, f, g, rfl, hr, hg, hb⟩
      case h_2 => cases h
    case h_2 => cases h
  · rintro ⟨a, b, d, e, f, g, rfl, hr, hg, hb⟩
    simp only [parseHexColor, hr, hg, hb]

/-- R131: `InvalidFormat` is the only error. -/
theorem parseHexColor_error {t : List Char} {e : TextError} (h : parseHexColor t = .error e) :
    e = .invalidFormat := by
  unfold parseHexColor at h
  split at h
  case h_1 => split at h <;> cases h; rfl
  case h_2 => cases h; rfl

/-- Settles O55: a string is split into three pairs, each pair into two digits. -/
theorem hexColorIsExactlySixDigits : Obligations.HexColorIsExactlySixDigits := by
  refine ⟨fun t c => ?_, hexDigit_eq_some_iff, fun t hne => ?_⟩
  · simp only [parseHexColor_eq_ok_iff, hexPair_eq_some_iff]
    constructor
    · rintro ⟨a, b, d, e, f, g, ht, ⟨x₀, x₁, h₀, h₁, hr⟩, ⟨x₂, x₃, h₂, h₃, hg⟩, ⟨x₄, x₅, h₄, h₅, hb⟩⟩
      exact ⟨a, b, d, e, f, g, x₀, x₁, x₂, x₃, x₄, x₅, ht, h₀, h₁, h₂, h₃, h₄, h₅, hr, hg, hb⟩
    · rintro ⟨a, b, d, e, f, g, x₀, x₁, x₂, x₃, x₄, x₅, ht, h₀, h₁, h₂, h₃, h₄, h₅, hr, hg, hb⟩
      exact ⟨a, b, d, e, f, g, ht, ⟨x₀, x₁, h₀, h₁, hr⟩, ⟨x₂, x₃, h₂, h₃, hg⟩, ⟨x₄, x₅, h₄, h₅, hb⟩⟩
  · cases hparse : parseHexColor t with
    | ok c => exact absurd hparse (hne c)
    | error e => rw [parseHexColor_error hparse]

/-! ## Integer channels -/

theorem inByteRange_iff (x : Int) : inByteRange x = true ↔ 0 ≤ x ∧ x ≤ 255 := by simp [inByteRange]

/-- An integer in 0..255 is kept by the conversion to a channel. -/
theorem toNat_ofInt_of_byteRange {x : Int} (h : 0 ≤ x ∧ x ≤ 255) : ((BitVec.ofInt 8 x).toNat : Int) = x := by
  rw [BitVec.toNat_ofInt]
  omega

/-- R132: three channels in range are kept as they are. -/
theorem colorOfChannels_of_inRange {r g b : Int} (hr : 0 ≤ r ∧ r ≤ 255) (hg : 0 ≤ g ∧ g ≤ 255)
    (hb : 0 ≤ b ∧ b ≤ 255) :
    colorOfChannels r g b = .ok ⟨BitVec.ofInt 8 r, BitVec.ofInt 8 g, BitVec.ofInt 8 b⟩ := by
  simp [colorOfChannels, inByteRange_iff, hr, hg, hb]

/-- R132: one channel out of range rejects all three. -/
theorem colorOfChannels_of_outOfRange {r g b : Int}
    (h : ¬ ((0 ≤ r ∧ r ≤ 255) ∧ (0 ≤ g ∧ g ≤ 255) ∧ 0 ≤ b ∧ b ≤ 255)) :
    colorOfChannels r g b = .error .outOfRange :=
  if_neg (by simpa only [Bool.and_eq_true, inByteRange_iff, and_assoc] using h)

/-- Settles O57: the range is tested before any channel is converted. -/
theorem integerChannelsAreRejectedNotClamped : Obligations.IntegerChannelsAreRejectedNotClamped := by
  intro r g b
  constructor
  · rintro ⟨hr₀, hr₁, hg₀, hg₁, hb₀, hb₁⟩
    exact ⟨_, colorOfChannels_of_inRange ⟨hr₀, hr₁⟩ ⟨hg₀, hg₁⟩ ⟨hb₀, hb₁⟩, toNat_ofInt_of_byteRange ⟨hr₀, hr₁⟩,
      toNat_ofInt_of_byteRange ⟨hg₀, hg₁⟩, toNat_ofInt_of_byteRange ⟨hb₀, hb₁⟩⟩
  · intro h
    exact colorOfChannels_of_outOfRange (by simpa only [and_assoc] using h)

end Sys2Proof.Machine
end

/-! # Proofs about errors (R160, R165, R174)

What raising an error leaves, and that an operation that ends with a nonzero `ERR` is TPLDEC raising one of the two
errors of `tpl_decode`. -/

section
namespace Sys2Proof.Machine

/-! ## Error codes -/

/-- R161: 0 is the code of `OK` alone. -/
theorem ErrCode.code_eq_zero_iff (e : ErrCode) : e.code = 0 ↔ e = .ok := by
  cases e <;> decide

/-- R98: decoding fails with one of two errors. -/
theorem tplDecode_error_cases {bytes : List Byte} {e : ErrCode} (h : tplDecode bytes = .error e) :
    e = .invalidHeader ∨ e = .truncatedFile := by
  cases e with
  | ok => exact absurd rfl (tplDecode_error_ne_ok h)
  | invalidHeader => exact .inl rfl
  | truncatedFile => exact .inr rfl
  | illegalOp => exact absurd h (tplDecode_ne_illegalOp bytes)

/-! ## Operations that end with an error -/

/-- R174: an operation other than TPLDEC raises no error. -/
theorem exec_errBits_eq_zero_of_ne_tpldec {i : Instr} {s t : State} (hi : i ≠ .tpldec)
    (h : exec i s = .next t) : errBits t.status = 0 := by
  cases i with
  | tpldec => exact absurd rfl hi
  | pack | unpack | tplenc | pal2bgr | bgr2pal =>
    cases h
    exact errBits_doneStatus .ok

/-- R165, R174: a nonzero `ERR` of an operation is TPLDEC raising the error its file decodes to. -/
theorem exec_eq_raise_of_errBits_ne_zero {i : Instr} {s t : State} (h : exec i s = .next t)
    (hne : errBits t.status ≠ 0) :
    i = .tpldec ∧ ∃ e, tplDecode (s.readIn s.fileLen) = .error e ∧ t = raise e s := by
  obtain rfl : i = .tpldec := by_contra fun hi => hne (exec_errBits_eq_zero_of_ne_tpldec hi h)
  refine ⟨rfl, ?_⟩
  cases hdec : tplDecode (s.readIn s.fileLen) with
  | ok p =>
    cases (execTpldec_ok hdec).symm.trans h
    exact absurd (errBits_doneStatus .ok) hne
  | error e =>
    cases (execTpldec_error hdec).symm.trans h
    exact ⟨e, rfl, rfl⟩

/-- R15: an operation that ends without an error has a result, so `OLEN` is not 0. -/
theorem exec_olen_ne_zero_of_errBits_eq_zero {i : Instr} {s t : State} (h : exec i s = .next t)
    (hok : errBits t.status = 0) : t.olen ≠ 0 := by
  obtain ⟨r, hexec, hlen⟩ | ⟨e, he, hexec⟩ := exec_cases i s
  · cases hexec.symm.trans h
    simp only [List.mem_cons, List.not_mem_nil, or_false] at hlen
    have holen : (complete .ok r s).olen.toNat = r.length := complete_olen_toNat .ok s (by omega)
    intro hzero
    have holenZero : (complete .ok r s).olen.toNat = 0 := congrArg BitVec.toNat hzero
    omega
  · cases hexec.symm.trans h
    exact absurd ((ErrCode.code_eq_zero_iff e).mp ((errBits_doneStatus e).symm.trans hok)) he

/-- Settles O9: a raise is a completion with no result bytes, and TPLDEC is the one operation that raises. -/
theorem raiseLeavesTheCodeAndNoResult : Obligations.RaiseLeavesTheCodeAndNoResult := by
  constructor
  · intro e s
    exact ⟨errBits_doneStatus e, busyBit_doneStatus e, doneBit_doneStatus e, rfl, fun _ => rfl, rfl, rfl, rfl⟩
  · intro i s t hexec hne
    obtain ⟨-, e, hdec, hraise⟩ := exec_eq_raise_of_errBits_ne_zero hexec hne
    exact ⟨e, hraise, tplDecode_error_cases hdec⟩

/-- Settles O27: the five operations end with `OK` and a result, and the turn of a busy block is an operation or the
completion of an illegal command. -/
theorem fiveOperationsCannotFail : Obligations.FiveOperationsCannotFail := by
  constructor
  · intro i hi s
    obtain ⟨e, r, -, hexec⟩ := exec_eq_complete i s
    have hok := exec_errBits_eq_zero_of_ne_tpldec hi hexec
    exact ⟨_, hexec, hok, exec_olen_ne_zero_of_errBits_eq_zero hexec hok⟩
  · intro s t hbusy hturn hne
    obtain ⟨hidle, -⟩ | ⟨-, i, hdec, hexec⟩ | ⟨-, d, hdec, -⟩ := blockTurn_cases s
    · exact absurd (hidle.symm.trans hbusy) Bool.false_ne_true
    · obtain ⟨rfl, -⟩ := exec_eq_raise_of_errBits_ne_zero (hexec.symm.trans hturn) hne
      exact .inl hdec
    · exact .inr ⟨d, hdec⟩

end Sys2Proof.Machine
end

/-! # Proofs about reset and a busy block (R40, R190, R191, R196)

What reset leaves of the registers, the buffers and an operation in progress, and that a busy block's inputs stay as
they were accepted. -/

section
namespace Sys2Proof.Machine

/-! ## While busy -/

/-- R196: no turn of the host changes anything of a busy block. -/
theorem sameBlock_hostTurn_of_busy {s t : State} (hbusy : s.busy = true) (h : hostTurn s = .next t) :
    SameBlock s t := by
  obtain ⟨-, rfl⟩ | ⟨a, l, -, ⟨addr, v, -, rfl⟩ | ⟨-, hsame⟩⟩ := hostTurn_cases h
  · exact SameBlock.refl _
  · rw [hostWrite_busy (s := s.withTodo l) hbusy]
    exact SameBlock.refl s
  · exact hsame

/-- R40: the completion of a busy block leaves what the operation has read. -/
theorem blockTurn_inputs_of_busy {s t : State} (hbusy : s.busy = true) (h : blockTurn s = .next t) :
    t.cmd = s.cmd ∧ t.ilen = s.ilen ∧ t.ibuf = s.ibuf := by
  obtain ⟨e, r, -, hturn, -⟩ := blockTurn_eq_complete hbusy
  cases hturn.symm.trans h
  exact ⟨complete_cmd e r s, complete_ilen e r s, complete_ibuf e r s⟩

/-- R40: by whose turn it is, a step of a busy block other than reset leaves `CMD`, `ILEN` and `IBUF`. -/
theorem step_inputs_of_busy {s t : State} (hbusy : s.busy = true) (h : step s = .next t)
    (hturn : nextTurn s ≠ .reset) : t.cmd = s.cmd ∧ t.ilen = s.ilen ∧ t.ibuf = s.ibuf := by
  obtain ⟨-, hstep⟩ | ⟨-, hstep⟩ | ⟨hreset, -⟩ := step_cases s
  · obtain ⟨hcmd, -, hilen, -, hibuf, -⟩ :=
      sameBlock_hostTurn_of_busy (s := s.popTurn) hbusy (hstep.symm.trans h)
    exact ⟨hcmd, hilen, hibuf⟩
  · exact blockTurn_inputs_of_busy (s := s.popTurn) hbusy (hstep.symm.trans h)
  · exact absurd hreset hturn

/-- Settles O12: a busy block ignores each write, and of its two kinds of step neither changes its inputs. -/
theorem hostWritesAreLostWhileBusy : Obligations.HostWritesAreLostWhileBusy := by
  intro s hbusy
  exact ⟨hostWrite_busy hbusy, fun _ h hturn => step_inputs_of_busy hbusy h hturn⟩

/-! ## Reset -/

/-- R21: where no byte of either buffer is specified, the window shows none. -/
theorem windowByte_buffers_eq_none {s : State} (hibuf : s.ibuf = []) (hobuf : s.obuf = []) {k : Nat}
    (hk : k < Config.bufSize) :
    windowByte s (Config.offIbuf + k) = none ∧ windowByte s (Config.offObuf + k) = none := by
  constructor
  · rw [windowByte_ibuf s hk, hibuf]; rfl
  · rw [windowByte_obuf s hk, hobuf]; exact ite_self none

/-- Settles O10: a reset leaves zeros and empty buffers, and `State.reset` has the same. -/
theorem resetLeavesRegistersZeroAndBuffersUnspecified :
    Obligations.ResetLeavesRegistersZeroAndBuffersUnspecified := by
  constructor
  · intro s
    exact ⟨applyReset_cmd s, applyReset_status s, applyReset_ilen s, applyReset_olen s, applyReset_busy s,
      fun _ hk => windowByte_buffers_eq_none (applyReset_ibuf s) (applyReset_obuf s) hk⟩
  · exact ⟨rfl, rfl, rfl, rfl, fun _ hk => windowByte_buffers_eq_none rfl rfl hk⟩

/-- R22: an idle block does nothing in its turn. -/
theorem blockTurn_of_idle {s : State} (h : s.busy = false) : blockTurn s = .next s := by
  simp [blockTurn, h]

/-- R190: where reset is the next turn, the step applies it. -/
theorem step_of_reset {s : State} {rest : List Turn} (h : s.turns = .reset :: rest) :
    step s = .next (applyReset s.popTurn) := by
  simp [step, nextTurn, h, takeTurn]

/-- Settles O11: the step applies reset, which leaves an idle block, and an idle block completes nothing. -/
theorem resetAbandonsTheOperation : Obligations.ResetAbandonsTheOperation := by
  intro s rest _ hturns
  have hidle : (applyReset s.popTurn).busy = false := applyReset_busy s.popTurn
  have hdone : doneBit (applyReset s.popTurn).status = false := by rw [applyReset_status]; rfl
  exact ⟨applyReset s.popTurn, step_of_reset hturns, hidle, hdone, fun _ => rfl, by simp [hturns],
    blockTurn_of_idle hidle⟩

end Sys2Proof.Machine
end

/-! # Proofs about the step (R7, R18, R22, R35)

What a step can do by whose turn it is, when it stops, and what it does where the block completes. -/

section
namespace Sys2Proof.Machine

/-! ## The turn of the block -/

theorem step_of_block {s : State} (h : nextTurn s = .block) : step s = blockTurn s.popTurn := by
  simp [step, h, takeTurn]

theorem blockTurn_of_busy {s : State} (h : s.busy = true) : blockTurn s = completeCommand s := by
  simp [blockTurn, h]

theorem completeCommand_of_decode {s : State} {i : Instr} (h : decode s.cmd = .ok i) :
    completeCommand s = exec i s := by
  simp [completeCommand, h]

/-- R18 (b), R22: the turn of a busy block is the operation that `CMD` selects. -/
theorem step_of_busy_block {s : State} {i : Instr} (hbusy : s.busy = true) (hturn : nextTurn s = .block)
    (hdec : decode s.cmd = .ok i) : step s = exec i s.popTurn :=
  calc step s = blockTurn s.popTurn := step_of_block hturn
    _ = completeCommand s.popTurn := blockTurn_of_busy hbusy
    _ = exec i s.popTurn := completeCommand_of_decode hdec

/-- The state in which a word has been placed is the one its acceptance leaves, with the block to move. -/
theorem withFetchWord_popTurn (s : State) (b : Byte) : (s.withFetchWord 8 b.toNat).popTurn = accept b s := by
  simp [State.withFetchWord, State.popTurn, accept]

/-- Settles O4: the placed command is the accepted one, so the second half is the first half in that state. -/
theorem stepRunsTheSelectedOperation : Obligations.StepRunsTheSelectedOperation := by
  refine ⟨fun s i hbusy hturn hdec => step_of_busy_block hbusy hturn hdec, fun s i => ?_⟩
  have hpop := withFetchWord_popTurn s (encode i)
  have hbusy : (s.withFetchWord 8 (encode i).toNat).busy = true := busyBit_busyStatus
  have hcmd : (s.withFetchWord 8 (encode i).toNat).cmd = encode i := by
    rw [← popTurn_cmd, hpop, accept_cmd]
  rw [step_of_busy_block hbusy rfl (by rw [hcmd, decode_encode]), hpop]

/-- Settles O2: the decoder inverts the encoder, and a byte that decodes is the encoding. -/
theorem decodeAndEncodeAgree : Obligations.DecodeAndEncodeAgree :=
  ⟨fun i _ => decode_encode i, fun _ _ h => (eq_encode_of_decode h).symm⟩

/-- Settles O6: in its turn a busy block completes, and a completion is idle and done. -/
theorem busyBlockCompletesInItsTurn : Obligations.BusyBlockCompletesInItsTurn := by
  intro s hbusy hturn
  obtain ⟨e, r, -, hdone, -⟩ := blockTurn_eq_complete (s := s.popTurn) hbusy
  exact ⟨_, (step_of_block hturn).trans hdone, by simp, by simp, rfl⟩

/-- R17: the status of a completion as a number. -/
theorem doneStatus_toNat (e : ErrCode) :
    (doneStatus e).toNat = 0x40 + (errBits (doneStatus e)).toNat ∧ (errBits (doneStatus e)).toNat ≤ 3 := by
  cases e <;> decide

/-- Settles O60: acceptance writes `busyStatus`, completion `doneStatus`. -/
theorem statusIsWrittenWhole : Obligations.StatusIsWrittenWhole := by
  refine ⟨fun s v hidle => ?_, fun s hbusy => ?_⟩
  · exact congrArg State.status (hostWrite_cmd hidle v)
  · obtain ⟨e, r, -, hdone, -⟩ := blockTurn_eq_complete hbusy
    exact ⟨_, hdone, doneStatus_toNat e⟩

/-! ## Every step -/

/-- Settles O5: by whose turn it is, a step is a reset, a turn of the block, or a turn of the host, and the host's
turn is what its first access does. -/
theorem blockChangesByCompletionHostWriteOrReset : Obligations.BlockChangesByCompletionHostWriteOrReset := by
  intro s t h
  obtain ⟨hturn, hstep⟩ | ⟨hturn, hstep⟩ | ⟨hturn, hstep⟩ := step_cases s
  · obtain ⟨htodo, rfl⟩ | ⟨a, l, htodo, haccess⟩ := hostTurn_cases (hstep.symm.trans h)
    · exact .inr (.inr (.inr (.inl ⟨hturn, htodo, rfl⟩)))
    · exact .inr (.inr (.inr (.inr ⟨hturn, a, l, htodo, haccess⟩)))
  · cases hb : s.busy with
    | true =>
      have hdone := (blockTurn_of_busy (s := s.popTurn) hb).symm.trans (hstep.symm.trans h)
      exact .inr (.inl ⟨hturn, rfl, hdone⟩)
    | false =>
      cases (blockTurn_of_idle (s := s.popTurn) hb).symm.trans (hstep.symm.trans h)
      exact .inr (.inr (.inl ⟨hturn, rfl, rfl⟩))
  · cases hstep.symm.trans h
    exact .inl ⟨hturn, rfl⟩

/-! ## Where a step stops -/

/-- It is the host's turn, and its next access is not one byte wide (R35, U6). -/
def WideAccessDue (s : State) : Prop :=
  nextTurn s = .host ∧ ∃ a rest, s.host.todo = a :: rest ∧ a.wf = false

theorem step_of_wideAccessDue {s : State} (h : WideAccessDue s) : step s = .refused .wideAccess := by
  obtain ⟨hturn, a, rest, htodo, hwide⟩ := h
  calc step s = hostTurn s.popTurn := by simp [step, hturn, takeTurn]
    _ = runAction a (s.popTurn.withTodo rest) := hostTurn_cons htodo
    _ = .refused .wideAccess := runAction_refused hwide _

/-- A turn of the host is answered if its first access is one byte wide or it has none. -/
theorem hostTurn_next {s : State} (h : ∀ a rest, s.host.todo = a :: rest → a.wf = true) :
    ∃ t, hostTurn s = .next t := by
  cases htodo : s.host.todo with
  | nil => exact ⟨s, by simp [hostTurn, htodo]⟩
  | cons a rest =>
    rw [hostTurn_cons htodo]
    exact runAction_next (h a rest htodo) _

/-- R7: every turn of the block is answered. -/
theorem blockTurn_next (s : State) : ∃ t, blockTurn s = .next t := by
  cases hb : s.busy with
  | true =>
    obtain ⟨e, r, -, hdone, -⟩ := blockTurn_eq_complete hb
    exact ⟨_, hdone⟩
  | false => exact ⟨s, blockTurn_of_idle hb⟩

theorem step_next_of_not_wideAccessDue {s : State} (h : ¬ WideAccessDue s) : ∃ t, step s = .next t := by
  obtain ⟨hturn, hstep⟩ | ⟨-, hstep⟩ | ⟨-, hstep⟩ := step_cases s
  · rw [hstep]
    refine hostTurn_next fun a rest htodo => ?_
    exact Bool.eq_true_of_not_eq_false fun hwide => h ⟨hturn, a, rest, htodo, hwide⟩
  · rw [hstep]
    exact blockTurn_next s.popTurn
  · exact ⟨_, hstep⟩

/-- Settles O7: a wide access is refused, and every other turn is answered. -/
theorem stepStopsOnlyOnAccessesNotOneByteWide : Obligations.StepStopsOnlyOnAccessesNotOneByteWide := by
  refine fun s => ⟨⟨fun ⟨t, hnext⟩ hwide => ?_, step_next_of_not_wideAccessDue⟩, fun hstops => ?_⟩
  · simp [step_of_wideAccessDue hwide] at hnext
  · refine step_of_wideAccessDue (by_contra fun hwide => ?_)
    obtain ⟨t, hnext⟩ := step_next_of_not_wideAccessDue hwide
    exact hstops t hnext

end Sys2Proof.Machine
end

/-! # Proofs about the block's invariant (R13, R15, R17, R18)

It holds after reset, and each way in which a step changes the block keeps it. -/

section
namespace Sys2Proof.Machine

/-! ## What keeps the invariant -/

/-- The invariant speaks of the block only. -/
theorem BlockInv.of_sameBlock {s t : State} (h : BlockInv s) (hsame : SameBlock s t) : BlockInv t := by
  have hbusy := hsame.busy
  obtain ⟨-, hstatus, -, holen, hibuf, hobuf⟩ := hsame
  exact {
    ibufWf := hibuf ▸ h.ibufWf
    obufWf := hobuf ▸ h.obufWf
    statusLegal := hstatus ▸ h.statusLegal
    olenLegal := holen ▸ h.olenLegal
    obufDefined := by rw [hobuf, holen]; exact h.obufDefined
    olenError := by rw [hbusy, holen, hstatus]; exact h.olenError }

theorem blockInv_applyReset (s : State) : BlockInv (applyReset s) where
  ibufWf := rfl
  obufWf := rfl
  statusLegal := rfl
  olenLegal := rfl
  obufDefined _ := by simp
  olenError _ := by simp

/-- The lengths of a result (R15) are the values of `OLEN`. -/
theorem legalOlen_ofNat {n : Nat} (h : n ∈ [0, 2, 3, 32, 48, 52]) : legalOlen (BitVec.ofNat 8 n) = true := by
  simp only [List.mem_cons, List.not_mem_nil, or_false] at h
  obtain rfl | rfl | rfl | rfl | rfl | rfl := h <;> rfl

/-- A completion has the invariant if its result has one of the six lengths and is empty exactly on an error. -/
theorem blockInv_complete {e : ErrCode} {r : List Byte} {s : State} (hibuf : Memory.wf s.ibuf = true)
    (hlen : r.length ∈ [0, 2, 3, 32, 48, 52]) (herr : r.length = 0 ↔ e ≠ .ok) : BlockInv (complete e r s) := by
  have hle : r.length ≤ 52 := by
    simp only [List.mem_cons, List.not_mem_nil, or_false] at hlen
    omega
  have holen : (complete e r s).olen.toNat = r.length := complete_olen_toNat e s hle
  exact {
    ibufWf := hibuf
    obufWf := wf_ofBytes r hle
    statusLegal := legalStatus_doneStatus e
    olenLegal := legalOlen_ofNat hlen
    obufDefined := fun k => by rw [holen, complete_obuf, lookup_ofBytes, isSome_getElem?]
    olenError := fun _ => by
      rw [complete_status, Ne, doneStatus_eq_ok_iff, ← Ne, ← herr, ← holen]
      exact BitVec.toNat_inj.symm }

/-- A turn of the block keeps the invariant: a completed operation has a result, a failed one has none. -/
theorem BlockInv.completeCommand {s t : State} (h : BlockInv s) (hbusy : s.busy = true)
    (hdone : completeCommand s = .next t) : BlockInv t := by
  rw [← blockTurn_of_busy hbusy] at hdone
  obtain ⟨r, hturn, hlen⟩ | ⟨e, herr, hturn⟩ := blockTurn_busy hbusy
  · cases hturn.symm.trans hdone
    have hpos : r.length ≠ 0 := fun hzero => by simp [hzero] at hlen
    exact blockInv_complete h.ibufWf (List.mem_cons_of_mem 0 hlen) (by simpa using hpos)
  · cases hturn.symm.trans hdone
    exact blockInv_complete h.ibufWf (by simp) (by simpa using herr)

/-- An acceptance keeps the invariant: `OLEN` and `OBUF` stay as they are, hidden. -/
theorem BlockInv.accept {s : State} (h : BlockInv s) (v : Byte) : BlockInv (accept v s) where
  ibufWf := h.ibufWf
  obufWf := h.obufWf
  statusLegal := rfl
  olenLegal := h.olenLegal
  obufDefined := h.obufDefined
  olenError hidle := by simp at hidle

/-- A host write keeps the invariant, whatever it reaches. -/
theorem BlockInv.hostWrite {s : State} (h : BlockInv s) (addr : Nat) (v : Byte) : BlockInv (hostWrite addr v s) := by
  obtain hw | ⟨-, -, hw⟩ | ⟨-, -, hw⟩ | ⟨-, i, hi, -, hw⟩ := hostWrite_cases addr v s
  · rw [hw]; exact h
  · rw [hw]; exact h.accept v
  · rw [hw]; exact ⟨h.ibufWf, h.obufWf, h.statusLegal, h.olenLegal, h.obufDefined, h.olenError⟩
  · rw [hw]; exact ⟨wf_store h.ibufWf hi, h.obufWf, h.statusLegal, h.olenLegal, h.obufDefined, h.olenError⟩

/-- Settles O13: a step changes the block by a reset, a completion or a host write, and each keeps the invariant. -/
theorem stepKeepsTheBlockInvariant : Obligations.StepKeepsTheBlockInvariant := by
  intro s t h hstep
  have hpop : BlockInv s.popTurn := h.of_sameBlock (SameBlock.refl s)
  obtain ⟨-, rfl⟩ | ⟨-, hbusy, hdone⟩ | ⟨-, -, rfl⟩ | ⟨-, -, rfl⟩ |
    ⟨-, a, l, -, ⟨addr, v, -, rfl⟩ | ⟨-, hsame⟩⟩ := blockChangesByCompletionHostWriteOrReset s t hstep
  · exact blockInv_applyReset s.popTurn
  · exact hpop.completeCommand hbusy hdone
  · exact hpop
  · exact hpop
  · exact (hpop.of_sameBlock (t := s.popTurn.withTodo l) (SameBlock.refl s)).hostWrite addr v
  · exact h.of_sameBlock hsame

/-- Settles O14: a reset leaves the invariant, and `State.reset` is reset to itself. -/
theorem resetHasTheBlockInvariant : Obligations.ResetHasTheBlockInvariant :=
  blockInv_applyReset State.reset

/-! ## What the invariant says -/

/-- R17: the flags of each of the six values of `STATUS`. -/
theorem flags_of_legalStatus {v : Byte} (h : legalStatus v = true) :
    ¬ (busyBit v = true ∧ doneBit v = true) ∧ rsvBits v = 0 ∧ (errBits v).toNat ≤ 3 ∧
      (errBits v ≠ 0 → doneBit v = true) := by
  simp only [legalStatus, List.contains_iff_mem, List.mem_cons, List.not_mem_nil, or_false] at h
  obtain rfl | rfl | rfl | rfl | rfl | rfl := h <;> decide

/-- Settles O15: the invariant has `STATUS` one of its six values. -/
theorem legalStatusHasExclusiveFlags : Obligations.LegalStatusHasExclusiveFlags :=
  fun _ h => flags_of_legalStatus h.statusLegal

theorem hostRead_of_none {s : State} {a : Nat} (h : windowByte s a = none) : hostRead a s = draw a s := by
  simp [hostRead, h]

/-- Settles O19: a read of an unspecified byte counts the draw and leaves the window as it is. -/
theorem unspecifiedReadsDrawAfresh : Obligations.UnspecifiedReadsDrawAfresh := by
  refine ⟨fun s a hnone => ?_, fun s k h hidle hk => h.windowByte_obuf_eq_none_iff hidle hk⟩
  obtain ⟨hsame, -⟩ := hostRead_frame a s
  have hagain : windowByte (hostRead a s).2 a = none := (hsame.windowByte a).trans hnone
  rw [hostRead_of_none hagain, hostRead_of_none hnone]
  exact ⟨draw_value a s, draw_value a _⟩

end Sys2Proof.Machine
end

/-! # Proofs about accesses of the window (R12, R30, R31, R33)

What a write of `IBUF` changes of what the host reads, and which offset a bus address reaches. -/

section
namespace Sys2Proof.Machine

/-! ## Writes of `IBUF` -/

/-- R32: outside 0x40 to 0x73 the window shows nothing of `IBUF`. -/
theorem windowByte_with_ibuf (s : State) (m : Memory) {a : Nat} (ha : ¬ (0x40 ≤ a ∧ a < 0x40 + 52)) :
    windowByte { s with ibuf := m } a = windowByte s a := by
  simp only [windowByte, ha, if_false]
  rfl

/-- R32: a byte stored in `IBUF` shows at its own offset and nowhere else. -/
theorem windowByte_store_ibuf (s : State) {i : Nat} (hi : i < 52) (v : Byte) (a : Nat) :
    windowByte { s with ibuf := Memory.store s.ibuf i v } a = if a = 0x40 + i then some v else windowByte s a := by
  by_cases ha : 0x40 ≤ a ∧ a < 0x40 + 52
  · obtain ⟨k, rfl⟩ := Nat.exists_eq_add_of_le ha.1
    have hk : k < 52 := by omega
    rw [windowByte_ibuf _ hk, windowByte_ibuf s hk]
    by_cases hik : i = k
    · rw [hik, if_pos rfl]; exact lookup_store_same ..
    · rw [if_neg (by omega)]; exact lookup_store_other _ _ hik
  · rw [windowByte_with_ibuf s _ ha, if_neg (by omega)]

/-- Settles O18: while idle the write stores the byte, and the canonical form is kept by a store. -/
theorem ibufReadsBackWhatWasWritten : Obligations.IbufReadsBackWhatWasWritten := by
  intro s i v hidle hi
  have hwrite : hostWrite (0x40 + i) v s = { s with ibuf := Memory.store s.ibuf i v } := hostWrite_ibuf hidle hi v
  rw [hwrite]
  refine ⟨?_, fun a ha => ?_, fun hwf => wf_store hwf hi⟩
  · rw [windowByte_store_ibuf s hi, if_pos rfl]
  · rw [windowByte_store_ibuf s hi, if_neg ha]

/-! ## Bus addresses -/

theorem busOffset_base_add {off : Nat} (h : off < 256) : busOffset (Config.base + off) = some off := by
  simp [busOffset, Config.windowSize, h]

theorem busOffset_of_outside {addr : Nat} (h : addr < Config.base ∨ Config.base + 256 ≤ addr) :
    busOffset addr = none :=
  if_neg (by simp only [Config.windowSize]; omega)

/-- R31: beyond the window nothing is specified. -/
theorem windowByte_of_outside (s : State) {off : Nat} (h : 256 ≤ off) : windowByte s off = none := by
  have hregs : off ≠ 0x00 ∧ off ≠ 0x01 ∧ off ≠ 0x02 ∧ off ≠ 0x03 := by omega
  have hibuf : ¬ (0x40 ≤ off ∧ off < 0x40 + 52) := by omega
  have hobuf : ¬ (0x80 ≤ off ∧ off < 0x80 + 52) := by omega
  have hwindow : ¬ off < 256 := by omega
  simp only [windowByte, hregs, hibuf, hobuf, hwindow, if_false]

/-- R31: a read outside the window leaves the block, and what the host has still to do. -/
theorem fetchOutside_frame (addr : Nat) (s : State) :
    SameBlock s (fetchOutside addr s) ∧ (fetchOutside addr s).host.todo = s.host.todo := by
  simp [fetchOutside, SameBlock]

/-- Settles O20: a bus access is the access at the offset its address reaches, if it reaches one. -/
theorem busAccessesReachTheWindow : Obligations.BusAccessesReachTheWindow := by
  intro s v
  refine ⟨fun off hoff => ?_, fun off hoff => ?_, fun addr haddr => ?_⟩
  · simp [runAction, busOffset_base_add hoff]
  · obtain ⟨hsame, -⟩ := hostRead_frame off s
    exact ⟨hostWrite_of_not_writable v s (by omega) (by omega) (by omega), windowByte_of_outside s hoff, hsame⟩
  · have hnone := busOffset_of_outside haddr
    exact ⟨by simp [runAction, hnone], fetchOutside addr s, by simp [runAction, hnone], fetchOutside_frame addr s⟩

end Sys2Proof.Machine
end

/-! # Proofs about round trips (R36, 40_bgr_codec.md to 42_palette_conversion.md, section 3 of each)

Words and bytes, packing and unpacking, encoding and decoding, and the two palette conversions, each pair composed
both ways, as functions and, through a transfer of the result bytes, as operations. -/

section
namespace Sys2Proof.Machine

/-! ## Words and their bytes -/

theorem wordBytes_le16 (lo hi : Byte) : wordBytes (le16 lo hi) = [lo, hi] := by
  have hlo : loByte (le16 lo hi) = lo := by
    apply BitVec.eq_of_toNat_eq
    rw [loByte_toNat, le16_toNat]
    omega
  have hhi : hiByte (le16 lo hi) = hi := by
    apply BitVec.eq_of_toNat_eq
    rw [hiByte_toNat, le16_toNat]
    omega
  rw [wordBytes, hlo, hhi]

theorem le16_loByte_hiByte (w : Word16) : le16 (loByte w) (hiByte w) = w := by
  apply BitVec.eq_of_toNat_eq
  rw [le16_toNat, loByte_toNat, hiByte_toNat]
  omega

/-- Settles O35: a word is `256 * hi + lo`, and quotient and remainder by 256 give the two back. -/
theorem wordsAreLittleEndian : Obligations.WordsAreLittleEndian :=
  ⟨fun lo hi => ⟨le16_toNat lo hi, wordBytes_le16 lo hi⟩, fun w => ⟨le16_loByte_hiByte w, wordBytes_eq_ofNat w⟩⟩

/-! ## Packing and unpacking -/

/-- Masking with 0xF8 leaves bits 7:3, that is a multiple of 8. -/
theorem toNat_and_F8 (b : Byte) : (b &&& 0xF8#8).toNat = b.toNat / 8 * 8 := by
  have hfields : b &&& 0xF8#8 = b.extractLsb' 3 5 ++ 0b000#3 := by
    refine BitVec.eq_of_getLsbD_eq fun i hi => ?_
    rw [BitVec.getLsbD_and, BitVec.getLsbD_append]
    interval_cases i <;> simp
  rw [hfields, ← scale8to5_eq_extractLsb', ← scale5to8_eq_append, scale5to8_toNat, scale8to5_toNat]

/-- Masking with 0x7F clears bit 7. -/
theorem toNat_and_7F (b : Byte) : (b &&& 0x7F#8).toNat = b.toNat % 128 :=
  (BitVec.toNat_and b 0x7F#8).trans (Nat.and_two_pow_sub_one_eq_mod b.toNat 7)

theorem unpack15_pack15 (c : Color) :
    unpack15 (pack15 c) = ⟨c.r &&& 0xF8#8, c.g &&& 0xF8#8, c.b &&& 0xF8#8⟩ := by
  have hr := c.r.isLt
  have hg := c.g.isLt
  have hb := c.b.isLt
  apply color_ext
  · rw [unpack15_r_toNat, pack15_toNat, toNat_and_F8]; omega
  · rw [unpack15_g_toNat, pack15_toNat, toNat_and_F8]; omega
  · rw [unpack15_b_toNat, pack15_toNat, toNat_and_F8]; omega

theorem and_F8_of_multiple {b : Byte} (h : b.toNat % 8 = 0) : b &&& 0xF8#8 = b := by
  apply BitVec.eq_of_toNat_eq
  rw [toNat_and_F8]
  omega

theorem pack15_unpack15_toNat (w : Word16) : (pack15 (unpack15 w)).toNat = w.toNat % 32768 := by
  rw [pack15_toNat, unpack15_r_toNat, unpack15_g_toNat, unpack15_b_toNat]
  omega

/-- Unpacking, then packing a word clears bit 7 of its second byte, which is bit 15. -/
theorem wordBytes_pack15_unpack15 (lo hi : Byte) :
    wordBytes (pack15 (unpack15 (le16 lo hi))) = [lo, hi &&& 0x7F#8] := by
  have hword : pack15 (unpack15 (le16 lo hi)) = le16 lo (hi &&& 0x7F#8) := by
    apply BitVec.eq_of_toNat_eq
    rw [pack15_unpack15_toNat, le16_toNat, le16_toNat, toNat_and_7F]
    omega
  rw [hword, wordBytes_le16]

/-- The input bytes of an operation that follows another, where they are the other's result bytes. -/
theorem ibufByte_of_transfer {t u : State} {e : ErrCode} {r : List Byte} {n k : Nat} {b : Byte}
    (h : ∀ k < n, Memory.lookup u.ibuf k = Memory.lookup (complete e r t).obuf k) (hk : k < n)
    (hb : r[k]? = some b) : u.ibufByte k = b :=
  ibufByte_of_lookup (by rw [h k hk, complete_obuf, lookup_ofBytes, hb])

/-- Settles O33: the fields of a packed color, scaled back, are the channels without their low three bits, and
UNPACK assembles the very word PACK has written. -/
theorem packThenUnpackClearsLowBits : Obligations.PackThenUnpackClearsLowBits := by
  refine ⟨unpack15_pack15, fun c hr hg hb => ?_, fun s t u hexec htransfer => ?_⟩
  · rw [unpack15_pack15, and_F8_of_multiple hr, and_F8_of_multiple hg, and_F8_of_multiple hb]
  · cases hexec
    have hdone := completesWith_unpack u
    rw [ibufByte_of_transfer htransfer (by decide) rfl, ibufByte_of_transfer htransfer (by decide) rfl,
      le16_loByte_hiByte, unpack15_pack15] at hdone
    exact hdone

/-- Settles O34: the word comes back modulo `2 ^ 15`, and PACK reads the very color UNPACK has written. -/
theorem unpackThenPackClearsBit15 : Obligations.UnpackThenPackClearsBit15 := by
  refine ⟨pack15_unpack15_toNat, fun v w hv hw heq => ?_, fun s t u hexec htransfer => ?_⟩
  · have hmod : v.toNat % 32768 = w.toNat % 32768 := by
      rw [← pack15_unpack15_toNat v, ← pack15_unpack15_toNat w, heq]
    exact BitVec.eq_of_toNat_eq (by omega)
  · cases hexec
    have hdone := completesWith_pack u
    rw [ibufByte_of_transfer htransfer (by decide) rfl, ibufByte_of_transfer htransfer (by decide) rfl,
      ibufByte_of_transfer htransfer (by decide) rfl] at hdone
    exact wordBytes_pack15_unpack15 .. ▸ hdone

/-! ## Encoding and decoding a file -/

theorem take_four_of_headerValid {f : List Byte} (h : headerValid f = true) : f.take 4 = Config.magic :=
  eq_of_beq h

theorem headerValid_tplEncode (p : List Byte) : headerValid (tplEncode p) = true := rfl

theorem tplDecode_tplEncode {p : List Byte} (h : p.length = 48) : tplDecode (tplEncode p) = .ok p :=
  (tplDecode_eq_ok_iff _ _).mpr
    ⟨headerValid_tplEncode p, by rw [tplEncode_length, h], h, fun j _ => (tplEncode_getElem? p j).symm⟩

/-- Where `IBUF` holds the first bytes of a sequence, that is what an operation reads. -/
theorem readIn_eq_take {s : State} {f : List Byte} {n : Nat} (hn : n ≤ f.length)
    (h : ∀ k < n, Memory.lookup s.ibuf k = f[k]?) : s.readIn n = f.take n := by
  refine List.ext_getElem? fun k => ?_
  by_cases hk : k < n
  · have hbyte : f[k]? = some (f[k]'(by omega)) := List.getElem?_eq_getElem _
    rw [readIn_getElem? s hk, List.getElem?_take_of_lt hk, hbyte, ibufByte_of_lookup ((h k hk).trans hbyte)]
  · rw [List.getElem?_eq_none (by rw [readIn_length]; omega), List.getElem?_eq_none (by rw [List.length_take]; omega)]

/-- Settles O38: the file TPLENC leaves is what TPLDEC reads, all 52 bytes of it. -/
theorem tplencThenTpldecIsTheIdentity : Obligations.TplencThenTpldecIsTheIdentity := by
  refine ⟨fun _ hp => tplDecode_tplEncode hp, fun s t u hexec hilen htransfer => ?_⟩
  cases hexec
  have hpal : (s.readIn 48).length = 48 := readIn_length s 48
  have hfile : (tplEncode (s.readIn 48)).length = 52 := by rw [tplEncode_length, hpal]
  have hlen : u.fileLen = 52 := by
    have holen : u.ilen.toNat = 52 := by rw [hilen, complete_olen]; exact congrArg (· % 2 ^ 8) hfile
    rw [State.fileLen, holen]; rfl
  have hread : u.readIn u.fileLen = tplEncode (s.readIn 48) := by
    rw [hlen, readIn_eq_take (f := tplEncode (s.readIn 48)) hfile.ge
      fun k hk => (htransfer k hk).trans (lookup_ofBytes _ k)]
    exact List.take_of_length_le hfile.le
  exact completesWith_tpldec_of_ok (hread ▸ tplDecode_tplEncode hpal)

/-- Settles O39: a file that decodes opens with the magic, and the payload is what follows. -/
theorem tplDecodeThenEncodeKeepsTheFirst52Bytes : Obligations.TplDecodeThenEncodeKeepsTheFirst52Bytes := by
  intro f p hdec
  have hfirst : tplEncode p = f.take 52 := by
    obtain ⟨-, h⟩ | ⟨-, -, h⟩ | ⟨hv, -, h⟩ := tplDecode_cases f
    · cases h.symm.trans hdec
    · cases h.symm.trans hdec
    · cases h.symm.trans hdec
      rw [tplEncode, ← take_four_of_headerValid hv, ← List.take_add]
  exact ⟨hfirst, fun hlen => hfirst.trans (List.take_of_length_le hlen.le)⟩

/-! ## The palette conversions -/

theorem wordsOf_flatMap_wordBytes (ws : List Word16) : wordsOf (ws.flatMap wordBytes) = ws := by
  induction ws with
  | nil => rfl
  | cons w ws ih =>
    calc wordsOf ((w :: ws).flatMap wordBytes)
        = le16 (loByte w) (hiByte w) :: wordsOf (ws.flatMap wordBytes) := rfl
      _ = w :: ws := by rw [le16_loByte_hiByte, ih]

theorem colorsOf_paletteBytes (cs : List Color) : colorsOf (paletteBytes cs) = cs := by
  induction cs with
  | nil => rfl
  | cons c cs ih =>
    calc colorsOf (paletteBytes (c :: cs)) = c :: colorsOf (paletteBytes cs) := rfl
      _ = c :: cs := by rw [ih]

/-- The colors of complete triples, written out, are the bytes. -/
theorem paletteBytes_colorsOf : ∀ {p : List Byte}, p.length % 3 = 0 → paletteBytes (colorsOf p) = p
  | [], _ => rfl
  | [_], h | [_, _], h => by simp at h
  | r :: g :: b :: rest, h => by
    have hrest : rest.length % 3 = 0 := by simpa [Nat.add_assoc] using h
    calc paletteBytes (colorsOf (r :: g :: b :: rest)) = r :: g :: b :: paletteBytes (colorsOf rest) := rfl
      _ = r :: g :: b :: rest := by rw [paletteBytes_colorsOf hrest]

theorem wordsOf_palToBgr (p : List Byte) : wordsOf (palToBgr p) = (colorsOf p).map pack15 := by
  rw [palToBgr, ← List.flatMap_map, wordsOf_flatMap_wordBytes]

/-- A stream of 16 words has no black entries added. -/
theorem bgrToPal_of_length_eq {s : List Byte} (h : s.length = 32) :
    bgrToPal s = paletteBytes ((wordsOf s).map unpack15) := by
  rw [bgrToPal_of_short (by rw [h]), h]
  exact List.append_nil _

/-- Quantizing every color masks every byte. -/
theorem paletteBytes_quantized (cs : List Color) :
    paletteBytes ((cs.map pack15).map unpack15) = (paletteBytes cs).map fun b => b &&& 0xF8#8 := by
  induction cs with
  | nil => rfl
  | cons c cs ih =>
    rw [List.map_cons, List.map_cons, paletteBytes, List.flatMap_cons, ← paletteBytes, ih, unpack15_pack15]
    rfl

/-- Byte `k` of a stream after the round trip: bit 7 is cleared in the second byte of each word. -/
def clearBit15 (x : Byte × Nat) : Byte := if x.2 % 2 = 1 then x.1 &&& 0x7F#8 else x.1

/-- Unpacking, then packing every word of a stream whose first byte has an even index. -/
theorem flatMap_pack15_unpack15 : ∀ {s : List Byte} {k : Nat}, s.length % 2 = 0 → k % 2 = 0 →
    ((wordsOf s).flatMap fun w => wordBytes (pack15 (unpack15 w))) = (s.zipIdx k).map clearBit15
  | [], _, _, _ => rfl
  | [_], _, h, _ => by simp at h
  | lo :: hi :: rest, k, h, hk => by
    have hrest : rest.length % 2 = 0 := by simpa [Nat.add_assoc] using h
    have hlo : clearBit15 (lo, k) = lo := if_neg (by simp [hk])
    have hhi : clearBit15 (hi, k + 1) = hi &&& 0x7F#8 := if_pos (show (k + 1) % 2 = 1 by omega)
    have ih := flatMap_pack15_unpack15 hrest (show (k + 1 + 1) % 2 = 0 by omega)
    rw [wordsOf, List.flatMap_cons, wordBytes_pack15_unpack15, ih, List.zipIdx_cons, List.zipIdx_cons,
      List.map_cons, List.map_cons, hlo, hhi]
    rfl

/-- Settles O45: each composition converts entry by entry, by the round trip of one entry. -/
theorem paletteConversionsCompose : Obligations.PaletteConversionsCompose := by
  refine ⟨fun p hp => ?_, fun s hs => ?_⟩
  · calc bgrToPal (palToBgr p)
        = paletteBytes (((colorsOf p).map pack15).map unpack15) := by
          rw [bgrToPal_of_length_eq (by rw [palToBgr_length, hp]), wordsOf_palToBgr]
      _ = p.map fun b => b &&& 0xF8#8 := by
          rw [paletteBytes_quantized, paletteBytes_colorsOf (by rw [hp])]
  · calc palToBgr (bgrToPal s)
        = (wordsOf s).flatMap fun w => wordBytes (pack15 (unpack15 w)) := by
          rw [bgrToPal_of_length_eq hs, palToBgr, colorsOf_paletteBytes, List.flatMap_map]
      _ = s.zipIdx.map clearBit15 := flatMap_pack15_unpack15 (by rw [hs]) rfl

/-- Settles O46: word `i` of a stream and color `i` of a palette are made of their own bytes. -/
theorem entriesAreConvertedOnTheirOwn : Obligations.EntriesAreConvertedOnTheirOwn := by
  refine ⟨fun p q _ _ i _ hagree j hj => ?_, fun s r i hi _ hagree j hj => ?_⟩
  · have hr : p[3 * i]? = q[3 * i]? := hagree 0 (by decide)
    have hcolor : (colorsOf p)[i]? = (colorsOf q)[i]? := by
      rw [colorsOf_getElem?, colorsOf_getElem?, hr, hagree 1 (by decide), hagree 2 (by decide)]
    rw [palToBgr_getElem? p i hj, palToBgr_getElem? q i hj, hcolor]
  · have hlo : s[2 * i]? = r[2 * i]? := hagree 0 (by decide)
    have hword : (wordsOf s)[i]? = (wordsOf r)[i]? := by
      rw [wordsOf_getElem?, wordsOf_getElem?, hlo, hagree 1 (by decide)]
    rw [bgrToPal_getElem? s hi hj, bgrToPal_getElem? r hi hj, bgrEntry, bgrEntry, hword]

end Sys2Proof.Machine
end

/-! # Proofs about operations as functions (R4, R14, R20, R23)

What each operation delivers is a value that depends on its read set and `ILEN` only; on an input presented as R14 says
it is the operation's pure function of the whole input. -/

section
namespace Sys2Proof.Machine

/-! ## What an operation delivers -/

/-- What operation `i` delivers from state `s`: the result bytes, or an error. -/
def delivered (i : Instr) (s : State) : Result ErrCode (List Byte) :=
  match i with
  | .pack => .ok (wordBytes (pack15 ⟨s.ibufByte 0, s.ibufByte 1, s.ibufByte 2⟩))
  | .unpack => .ok (colorBytes (unpack15 (le16 (s.ibufByte 0) (s.ibufByte 1))))
  | .tpldec => tplDecode (s.readIn s.fileLen)
  | .tplenc => .ok (tplEncode (s.readIn 48))
  | .pal2bgr => .ok (palToBgr (s.readIn 48))
  | .bgr2pal => .ok (bgrToPal (s.readIn s.streamLen))

/-- The completion that delivers a result or an error (R18 (b), R165). -/
def completion : Result ErrCode (List Byte) → State → State
  | .ok r, s => complete .ok r s
  | .error e, s => raise e s

/-- Every operation is the completion with what it delivers. -/
theorem exec_eq_completion (i : Instr) (s : State) : exec i s = .next (completion (delivered i s) s) := by
  cases i with
  | tpldec =>
    cases hdec : tplDecode (s.readIn s.fileLen) with
    | ok p => simp only [delivered, hdec]; exact execTpldec_ok hdec
    | error e => simp only [delivered, hdec]; exact execTpldec_error hdec
  | pack | unpack | tplenc | pal2bgr | bgr2pal => rfl

theorem completion_obuf (x : Result ErrCode (List Byte)) (s t : State) :
    (completion x s).obuf = (completion x t).obuf := by cases x <;> rfl

theorem completion_olen (x : Result ErrCode (List Byte)) (s t : State) :
    (completion x s).olen = (completion x t).olen := by cases x <;> rfl

theorem completion_status (x : Result ErrCode (List Byte)) (s t : State) :
    (completion x s).status = (completion x t).status := by cases x <;> rfl

/-- Settles O28: an operation is a completion, which leaves all of these. -/
theorem noOperationChangesItsInputs : Obligations.NoOperationChangesItsInputs := by
  intro i s t h
  obtain ⟨e, r, -, hexec⟩ := exec_eq_complete i s
  cases hexec.symm.trans h
  exact ⟨complete_cmd e r s, complete_ilen e r s, fun _ => rfl, complete_host e r s, complete_turns e r s⟩

/-! ## The read set -/

theorem readIn_congr {s t : State} {n : Nat} (h : ∀ k < n, s.ibufByte k = t.ibufByte k) : s.readIn n = t.readIn n :=
  List.map_congr_left fun k hk => h k (List.mem_range.mp hk)

/-- R23: TPLDEC reads the header if `ILEN` has one. -/
theorem header_mem_readSet {s : State} (hlen : 4 ≤ s.ilen.toNat) {k : Nat} (hk : k < 4) : k ∈ readSet .tpldec s := by
  have hlong : ¬ s.ilen.toNat < 4 := by omega
  simp only [readSet, hlong, if_false]
  split
  · exact List.mem_range.mpr (by omega)
  · exact List.mem_range.mpr hk

/-- R23: TPLDEC reads the whole file if its header is valid and `ILEN` says that it is there. -/
theorem file_mem_readSet {s : State} (hv : headerValid (s.readIn s.fileLen) = true) (hlen : 52 ≤ s.ilen.toNat)
    {k : Nat} (hk : k < 52) : k ∈ readSet .tpldec s := by
  have hlong : ¬ s.ilen.toNat < 4 := by omega
  obtain ⟨-, hmagic⟩ := (headerValid_file_iff s).mp hv
  have hhead : headerValid (s.readIn 4) = true := (headerValid_readIn_iff s 4).mpr ⟨Nat.le_refl 4, hmagic⟩
  simp only [readSet, hlong, hhead, hlen, if_false, and_self, if_true]
  exact List.mem_range.mpr hk

/-- R23, R92: the header is judged the same where the bytes of the read set are the same. -/
theorem headerValid_file_congr {s t : State} (h : ∀ k ∈ readSet .tpldec s, s.ibufByte k = t.ibufByte k)
    (hilen : s.ilen = t.ilen) : headerValid (s.readIn s.fileLen) = headerValid (t.readIn t.fileLen) := by
  rw [Bool.eq_iff_iff, headerValid_file_iff, headerValid_file_iff, ← hilen]
  refine and_congr_right fun hlen => ?_
  have hbyte (k : Nat) (hk : k < 4) : s.ibufByte k = t.ibufByte k := h k (header_mem_readSet hlen hk)
  rw [hbyte 0 (by decide), hbyte 1 (by decide), hbyte 2 (by decide), hbyte 3 (by decide)]

/-- R23: what TPLDEC delivers. A short file is told by `ILEN` alone. -/
theorem tplDecode_file_congr {s t : State} (h : ∀ k ∈ readSet .tpldec s, s.ibufByte k = t.ibufByte k)
    (hilen : s.ilen = t.ilen) : tplDecode (s.readIn s.fileLen) = tplDecode (t.readIn t.fileLen) := by
  have hheader := headerValid_file_congr h hilen
  have hfile : s.fileLen = t.fileLen := by rw [State.fileLen, State.fileLen, hilen]
  obtain ⟨hv, hdec⟩ | ⟨hv, hshort, hdec⟩ | ⟨hv, hlong, -⟩ := tplDecode_cases (s.readIn s.fileLen)
  · rw [hdec, (tplDecode_eq_invalidHeader_iff _).mpr (hheader ▸ hv)]
  · rw [readIn_length, hfile] at hshort
    rw [hdec, (tplDecode_eq_truncatedFile_iff _).mpr ⟨hheader ▸ hv, by rwa [readIn_length]⟩]
  · rw [readIn_length] at hlong
    have hlen : 52 ≤ s.ilen.toNat := hlong.trans (Nat.min_le_left _ _)
    have hle : s.fileLen ≤ 52 := Nat.min_le_right _ _
    rw [← hfile, readIn_congr fun k hk => h k (file_mem_readSet hv hlen (by omega))]

/-- R23, R114: what BGR2PAL delivers, entry by entry. -/
theorem bgrEntry_stream_congr {s t : State} (h : ∀ k ∈ readSet .bgr2pal s, s.ibufByte k = t.ibufByte k)
    (hilen : s.ilen = t.ilen) (i : Nat) :
    bgrEntry (s.readIn s.streamLen) i = bgrEntry (t.readIn t.streamLen) i := by
  rw [bgrEntry_stream, bgrEntry_stream, ← hilen]
  refine if_ctx_congr Iff.rfl (fun hi => ?_) fun _ => rfl
  rw [h (2 * i) (List.mem_range.mpr (by omega)), h (2 * i + 1) (List.mem_range.mpr (by omega))]

/-- R4, R20, R23: what an operation delivers depends on its read set, and on `ILEN` if it reads it. -/
theorem delivered_congr {i : Instr} {s t : State} (h : ∀ k ∈ readSet i s, s.ibufByte k = t.ibufByte k)
    (hilen : readsIlen i = true → s.ilen = t.ilen) : delivered i s = delivered i t := by
  have hrange {n : Nat} (hset : readSet i s = List.range n) (k : Nat) (hk : k < n) : s.ibufByte k = t.ibufByte k :=
    h k (hset ▸ List.mem_range.mpr hk)
  cases i with
  | pack =>
    simp only [delivered, hrange rfl 0 (by decide), hrange rfl 1 (by decide), hrange rfl 2 (by decide)]
  | unpack => simp only [delivered, hrange rfl 0 (by decide), hrange rfl 1 (by decide)]
  | tpldec => exact tplDecode_file_congr h (hilen rfl)
  | tplenc | pal2bgr => simp only [delivered, readIn_congr (hrange rfl)]
  | bgr2pal => simp only [delivered, bgrToPal_eq_flatMap, bgrEntry_stream_congr h (hilen rfl)]

/-- Settles O48: both states complete with the same delivery. -/
theorem resultDependsOnTheRequestOnly : Obligations.ResultDependsOnTheRequestOnly := by
  intro i s t h hilen
  have hexec := exec_eq_completion i s
  rw [delivered_congr h hilen] at hexec
  exact ⟨_, _, hexec, exec_eq_completion i t, completion_obuf .., completion_olen .., completion_status ..⟩

/-! ## Inputs of any length -/

theorem Presents.ibufByte {s : State} {f : List Byte} (h : Presents s f) {k : Nat} (hk : k < 52)
    (hlen : k < f.length) : s.ibufByte k = f.getD k 0 := by
  obtain ⟨-, hbytes⟩ := h
  have hbyte : f[k]? = some (f.getD k 0) := by simp [hlen]
  exact ibufByte_of_lookup ((hbytes k hk hlen).trans hbyte)

theorem Presents.readIn {s : State} {f : List Byte} (h : Presents s f) {n : Nat} (hn : n ≤ 52)
    (hlen : n ≤ f.length) : s.readIn n = f.take n := by
  obtain ⟨-, hbytes⟩ := h
  exact readIn_eq_take hlen fun k hk => hbytes k (Nat.lt_of_lt_of_le hk hn) (Nat.lt_of_lt_of_le hk hlen)

/-- R14: with `ILEN` capped at 255, the first `n` bytes are read as if the whole length were known. -/
theorem Presents.readIn_min {s : State} {f : List Byte} (h : Presents s f) {n : Nat} (hn : n ≤ 52) :
    s.readIn (min s.ilen.toNat n) = f.take n := by
  have hmin : min s.ilen.toNat n = min n f.length := by
    obtain ⟨hilen, -⟩ := h
    omega
  rw [hmin, h.readIn (by omega) (Nat.min_le_right _ _), ← List.take_eq_take_min]

/-- R14, R91: a file is judged and decoded by its first 52 bytes. -/
theorem tplDecode_take (f : List Byte) : tplDecode (f.take 52) = tplDecode f := by
  have hheader : headerValid (f.take 52) = headerValid f := by simp [headerValid, List.take_take]
  have hlen : (f.take 52).length = min 52 f.length := List.length_take
  obtain ⟨hv, hdec⟩ | ⟨hv, hshort, hdec⟩ | ⟨hv, hlong, hdec⟩ := tplDecode_cases f
  · rw [hdec, (tplDecode_eq_invalidHeader_iff _).mpr (hheader.trans hv)]
  · rw [hdec, (tplDecode_eq_truncatedFile_iff _).mpr ⟨hheader.trans hv, by omega⟩]
  · refine ((tplDecode_eq_ok_iff _ _).mpr ⟨hheader.trans hv, by omega, ?_⟩).trans hdec.symm
    obtain ⟨hpal, hbyte⟩ := (payload_eq_iff hlong _).mp rfl
    exact ⟨hpal, fun j hj => (hbyte j hj).trans (List.getElem?_take_of_lt (by omega)).symm⟩

/-- R14: on an input presented in full or cut at 52 bytes, an operation delivers its pure function of the whole. -/
theorem delivered_of_presents {i : Instr} {f : List Byte} {s : State} (hlen : operandLen i ≤ f.length)
    (h : Presents s f) : delivered i s = functionOf i f := by
  cases i with
  | pack =>
    have hbyte (k : Nat) (hk : k < 3) : s.ibufByte k = f.getD k 0 := h.ibufByte (by omega) (Nat.lt_of_lt_of_le hk hlen)
    simp only [delivered, functionOf, hbyte 0 (by decide), hbyte 1 (by decide), hbyte 2 (by decide)]
  | unpack =>
    have hbyte (k : Nat) (hk : k < 2) : s.ibufByte k = f.getD k 0 := h.ibufByte (by omega) (Nat.lt_of_lt_of_le hk hlen)
    simp only [delivered, functionOf, hbyte 0 (by decide), hbyte 1 (by decide)]
  | tpldec => exact (congrArg tplDecode (h.readIn_min (Nat.le_refl 52))).trans (tplDecode_take f)
  | tplenc | pal2bgr =>
    have hpalette : s.readIn 48 = f.take 48 := h.readIn (by decide) hlen
    simp only [delivered, functionOf, hpalette]
  | bgr2pal =>
    have hstream : s.readIn s.streamLen = f.take 32 := h.readIn_min (by decide)
    obtain ⟨htruncate, -⟩ := streamsAreTruncatedAndOddBytesDiscarded
    simp only [delivered, functionOf, hstream, ← htruncate f]

/-- R15: every result fits `OBUF`. -/
theorem functionOf_length_le {i : Instr} {f r : List Byte} (h : functionOf i f = .ok r) : r.length ≤ 52 := by
  cases i with
  | tpldec => rw [tplDecode_ok_length h]; decide
  | pack | unpack => cases h; simp
  | tplenc => cases h; rw [tplEncode_length, List.length_take]; omega
  | pal2bgr => cases h; rw [palToBgr_length, List.length_take]; omega
  | bgr2pal => cases h; rw [bgrToPal_length]; decide

theorem functionOf_error_ne_ok {i : Instr} {f : List Byte} {e : ErrCode} (h : functionOf i f = .error e) :
    e ≠ .ok := by
  cases i with
  | tpldec => exact tplDecode_error_ne_ok h
  | pack | unpack | tplenc | pal2bgr | bgr2pal => cases h

theorem exec_of_presents {i : Instr} {f : List Byte} {s : State} (hlen : operandLen i ≤ f.length)
    (h : Presents s f) : exec i s = .next (completion (functionOf i f) s) := by
  rw [exec_eq_completion, delivered_of_presents hlen h]

/-- Settles O47: the operation delivers its function of the whole input, and its result fits `OBUF`. -/
theorem operationsImplementTheirFunctions : Obligations.OperationsImplementTheirFunctions := by
  intro i f s hlen hpresents
  have hexec := exec_of_presents hlen hpresents
  cases hf : functionOf i f with
  | ok r =>
    rw [hf] at hexec
    exact completesWith_of_exec hexec (functionOf_length_le hf)
  | error e =>
    rw [hf] at hexec
    exact ⟨functionOf_error_ne_ok hf, completesWith_of_exec hexec (Nat.zero_le _)⟩

end Sys2Proof.Machine
end

/-! # Proofs about runs (R40, R61, R196, R201, R204)

Host turns before a completion change nothing of it; then the lines of a host program one by one where no turns are
prescribed, and the transaction that is made of them. -/

section
namespace Sys2Proof.Machine

/-! ## Host turns while busy -/

/-- A turn of the host keeps the turns, and leaves it only accesses one byte wide if it had only such. -/
theorem hostTurn_keeps {s t : State} (h : hostTurn s = .next t) (hwf : s.host.todo.all HostAction.wf = true) :
    t.turns = s.turns ∧ t.host.todo.all HostAction.wf = true := by
  cases htodo : s.host.todo with
  | nil =>
    obtain rfl : s = t := by simpa [hostTurn, htodo] using h
    exact ⟨rfl, hwf⟩
  | cons a rest =>
    rw [hostTurn_cons htodo] at h
    rw [htodo, List.all_cons, Bool.and_eq_true] at hwf
    exact runAction_keeps (s := s.withTodo rest) h hwf.2

/-- R196: a prescribed host turn of a busy block uses up the turn and leaves the block. -/
theorem step_host_of_busy {s : State} {l : List Turn} (hbusy : s.busy = true) (hturns : s.turns = .host :: l)
    (hwf : s.host.todo.all HostAction.wf = true) :
    ∃ t, step s = .next t ∧ SameBlock s t ∧ t.turns = l ∧ t.host.todo.all HostAction.wf = true := by
  have hstep : step s = hostTurn s.popTurn := by simp [step, nextTurn, hturns, takeTurn]
  obtain ⟨t, ht⟩ := hostTurn_next (s := s.popTurn) fun a rest htodo =>
    List.all_eq_true.mp hwf a (by rw [← popTurn_host, htodo]; exact List.mem_cons_self)
  obtain ⟨hkept, hwf'⟩ := hostTurn_keeps ht hwf
  exact ⟨t, hstep.trans ht, sameBlock_hostTurn_of_busy (s := s.popTurn) hbusy ht,
    by rw [hkept, popTurn_turns, hturns, List.tail_cons], hwf'⟩

/-- R196: any number of them. -/
theorem runSteps_host_of_busy (n : Nat) {s : State} {l : List Turn} (hbusy : s.busy = true)
    (hturns : s.turns = List.replicate n .host ++ l) (hwf : s.host.todo.all HostAction.wf = true) :
    ∃ t, runSteps n s = .next t ∧ SameBlock s t ∧ t.turns = l := by
  induction n generalizing s with
  | zero => exact ⟨s, rfl, SameBlock.refl s, hturns⟩
  | succ n ih =>
    obtain ⟨t, hstep, hsame, ht, hwf'⟩ := step_host_of_busy hbusy hturns hwf
    obtain ⟨u, hrun, hsame', hu⟩ := ih (hsame.busy.trans hbusy) ht hwf'
    exact ⟨u, (runSteps_succ n hstep).trans hrun, hsame.trans hsame', hu⟩

theorem SameBlock.cmd {s t : State} (h : SameBlock s t) : t.cmd = s.cmd := h.1

theorem SameBlock.ilen {s t : State} (h : SameBlock s t) : t.ilen = s.ilen := h.2.2.1

/-- A byte the host has written is read the same wherever the block is the same. -/
theorem SameBlock.ibufByte {s t : State} (h : SameBlock s t) {k : Nat} (hk : Written s k) :
    s.ibufByte k = t.ibufByte k := by
  obtain ⟨-, -, -, -, hibuf, -⟩ := h
  obtain ⟨b, hb⟩ := Option.isSome_iff_exists.mp hk
  rw [ibufByte_of_lookup hb, ibufByte_of_lookup (hibuf ▸ hb)]

/-- R20, R193: with its input written, a busy block completes the same wherever it is the same. -/
theorem blockTurn_congr {s t : State} (hbusy : s.busy = true) (hready : CommandReady s) (hsame : SameBlock s t) :
    ∃ u v, blockTurn t = .next u ∧ blockTurn s = .next v ∧
      u.obuf = v.obuf ∧ u.olen = v.olen ∧ u.status = v.status := by
  have hbusy' := hsame.busy.trans hbusy
  cases hdec : decode s.cmd with
  | ok i =>
    obtain ⟨v, u, hs, ht, hobuf, holen, hstatus⟩ := resultDependsOnTheRequestOnly i s t
      (fun k hk => hsame.ibufByte (hready i hdec k hk)) fun _ => hsame.ilen.symm
    refine ⟨u, v, ?_, ?_, hobuf.symm, holen.symm, hstatus.symm⟩
    · rw [blockTurn_of_busy hbusy', completeCommand_of_decode (hsame.cmd ▸ hdec), ht]
    · rw [blockTurn_of_busy hbusy, completeCommand_of_decode hdec, hs]
  | error d =>
    have hillegal (i : Instr) : decode s.cmd ≠ .ok i := by simp [hdec]
    exact ⟨_, _, blockTurn_of_illegal hbusy' (hsame.cmd ▸ hillegal), blockTurn_of_illegal hbusy hillegal, rfl, rfl, rfl⟩

/-- Settles O49: the host's turns leave the block, and the completion depends on the block only. -/
theorem resultIsIndependentOfTheCompletionTime : Obligations.ResultIsIndependentOfTheCompletionTime := by
  intro s n rest hbusy hready hturns hwf
  obtain ⟨t, hrun, hsame, ht⟩ := runSteps_host_of_busy n hbusy hturns hwf
  have hbusy' : t.popTurn.busy = true := hsame.busy.trans hbusy
  obtain ⟨u, v, hu, hv, hobuf, holen, hstatus⟩ := blockTurn_congr (t := t.popTurn) hbusy hready hsame
  have hstep : step t = .next u := (step_of_block (by simp [nextTurn, ht])).trans hu
  obtain ⟨hcmd, hilen, hibuf⟩ := blockTurn_inputs_of_busy hbusy' hu
  obtain ⟨hcmd', -, hilen', -, hibuf', -⟩ := hsame
  have hrest : u.turns = rest := by
    obtain ⟨e, r, -, hdone, -⟩ := blockTurn_eq_complete hbusy'
    cases hdone.symm.trans hu
    rw [complete_turns, popTurn_turns, ht, List.tail_cons]
  have hrun' : runSteps (n + 1) s = .next u := (runSteps_add 1 hrun).trans (runSteps_one hstep)
  exact ⟨u, v, (core_run_eq ..).trans hrun', hv, hobuf, holen, hstatus, hcmd.trans hcmd', hilen.trans hilen',
    hibuf.trans hibuf', hrest⟩

/-! ## One access of an idle block -/

/-- The block is idle, no turns are prescribed and these are the host's next accesses. -/
structure HostMoves (s : State) (todo : List HostAction) : Prop where
  idle : s.busy = false
  turns : s.turns = []
  todo : s.host.todo = todo

theorem HostMoves.step_eq {s : State} {a : HostAction} {rest : List HostAction} (h : HostMoves s (a :: rest)) :
    step s = runAction a (s.withTodo rest) :=
  (step_idle h.idle h.turns).trans (hostTurn_cons h.todo)

theorem HostMoves.step_write {s : State} {addr : Nat} {v : Byte} {rest : List HostAction}
    (h : HostMoves s (.memWrite addr 1 v :: rest)) : step s = .next (hostWrite addr v (s.withTodo rest)) := by
  simp [h.step_eq, runAction]

/-! ## LOAD -/

/-- What `LOAD` of `bs` leaves (R61), `rest` being what the host has still to do. -/
structure AfterLoad (s : State) (bs : List Byte) (rest : List HostAction) (t : State) : Prop where
  host : t.host = { s.host with todo := rest }
  turns : t.turns = []
  ilen : t.ilen.toNat = bs.length
  loaded : ∀ k < bs.length, Memory.lookup t.ibuf k = bs[k]?
  kept : ∀ k, bs.length ≤ k → Memory.lookup t.ibuf k = Memory.lookup s.ibuf k
  cmd : t.cmd = s.cmd
  status : t.status = s.status
  olen : t.olen = s.olen
  obuf : t.obuf = s.obuf

theorem AfterLoad.got {s t : State} {bs : List Byte} {rest : List HostAction} (h : AfterLoad s bs rest t) :
    t.host.got = s.host.got := by rw [h.host]

theorem AfterLoad.hostMoves {s t : State} {bs : List Byte} {rest : List HostAction} (h : AfterLoad s bs rest t)
    (hidle : s.busy = false) : HostMoves t rest where
  idle := (congrArg busyBit h.status).trans hidle
  turns := h.turns
  todo := by rw [h.host]

theorem runSteps_load {s : State} {bs : List Byte} {rest : List HostAction}
    (h : HostMoves s (loadActions bs ++ rest)) (hlen : bs.length ≤ 52) :
    ∃ t, runSteps (bs.length + 1) s = .next t ∧ AfterLoad s bs rest t := by
  have htodo := h.todo
  rw [loadActions, List.append_assoc, List.singleton_append] at htodo
  obtain ⟨t, hrun, hhost, hturns, hibuf, hcmd, hstatus, -, holen, hobuf⟩ :=
    runSteps_loadWrites bs 0 s _ h.idle h.turns (by omega) htodo
  have hidle : t.busy = false := (congrArg busyBit hstatus).trans h.idle
  have hstep := HostMoves.step_write (s := t) ⟨hidle, hturns, congrArg HostAgent.todo hhost⟩
  rw [hostWrite_ilen (s := t.withTodo rest) hidle] at hstep
  refine ⟨_, (runSteps_add 1 hrun).trans (runSteps_one hstep), ?_⟩
  exact {
    host := by rw [← withTodo_host, State.withTodo, hhost]; rfl
    turns := hturns
    ilen := by simp; omega
    loaded := fun k hk => (hibuf k).trans (if_pos (by omega))
    kept := fun k hk => (hibuf k).trans (if_neg (by omega))
    cmd := hcmd
    status := hstatus
    olen := holen
    obuf := hobuf }

/-- Settles O51: the writes of the bytes one by one, then the write of `ILEN`. -/
theorem loadLineStoresItsBytes : Obligations.LoadLineStoresItsBytes := by
  intro s bs rest hidle hturns hwf htodo
  obtain ⟨t, hrun, h⟩ := runSteps_load ⟨hidle, hturns, htodo⟩ (of_decide_eq_true hwf)
  exact ⟨t, (core_run_eq ..).trans hrun, congrArg HostAgent.todo h.host, h.ilen, h.loaded, h.kept, h.cmd,
    h.status, h.olen, h.obuf⟩

/-! ## READ -/

/-- What `READ` leaves (R61), `rest` being what the host has still to do. -/
structure AfterRead (s : State) (rest : List HostAction) (t : State) : Prop where
  todo : t.host.todo = rest
  status : t.host.status = s.host.status
  turns : t.turns = []
  same : SameBlock s t
  length : t.host.got.length = s.olen.toNat
  got : ∀ k < s.olen.toNat, t.host.got[k]? = Memory.lookup s.obuf k

theorem AfterRead.hostMoves {s t : State} {rest : List HostAction} (h : AfterRead s rest t)
    (hidle : s.busy = false) : HostMoves t rest :=
  ⟨h.same.busy.trans hidle, h.turns, h.todo⟩

/-- The first access of `READ`, of an idle block: as many reads are due as `OLEN` says. -/
theorem readLength_of_idle {s : State} (h : s.busy = false) : readLength s =
    ((s.noteRead s.olen).withGot []).withTodo ((List.range s.olen.toNat).map .readOut ++ s.host.todo) := by
  have holen : windowByte s Config.offOlen = some s.olen := by simp [windowByte_olen, h]
  simp only [readLength, fetchByte_of_some holen]
  rfl

theorem runSteps_read {s : State} {rest : List HostAction} (h : HostMoves s (.readLen :: rest))
    (hlen : s.olen.toNat ≤ 52) (hdefined : ∀ k < s.olen.toNat, (Memory.lookup s.obuf k).isSome = true) :
    ∃ t, runSteps (s.olen.toNat + 1) s = .next t ∧ AfterRead s rest t := by
  let u := (((s.withTodo rest).noteRead s.olen).withGot []).withTodo
    ((List.range' 0 s.olen.toNat).map .readOut ++ rest)
  have hstep : step s = .next u := by
    rw [h.step_eq, runAction, readLength_of_idle (s := s.withTodo rest) h.idle, List.range_eq_range']
    rfl
  have hread : SameBlock s u := ⟨rfl, rfl, rfl, rfl, rfl, rfl⟩
  obtain ⟨t, hrun, htodo, hstatus, hturns, hsame, bs, hgot, hbs, hbyte⟩ :=
    runSteps_readOuts s.olen.toNat 0 u rest h.idle h.turns (by omega)
      (fun k _ hk => hdefined k (by simpa using hk)) rfl
  have hbytes : t.host.got = bs := hgot
  exact ⟨t, (runSteps_succ _ hstep).trans hrun, {
    todo := htodo
    status := hstatus
    turns := hturns
    same := SameBlock.trans hread hsame
    length := by rw [hbytes, hbs]
    got := fun k hk => by rw [hbytes, hbyte k hk, Nat.zero_add]; rfl }⟩

/-- R15: a result fits `OBUF`. -/
theorem BlockInv.olen_le {s : State} (h : BlockInv s) : s.olen.toNat ≤ 52 := by
  have holen := h.olenLegal
  simp only [legalOlen, List.contains_iff_mem, List.mem_cons, List.not_mem_nil, or_false] at holen
  obtain heq | heq | heq | heq | heq | heq := holen <;> rw [heq] <;> decide

theorem BlockInv.runSteps_read {s : State} (hinv : BlockInv s) {rest : List HostAction}
    (h : HostMoves s (.readLen :: rest)) :
    ∃ t, runSteps (s.olen.toNat + 1) s = .next t ∧ AfterRead s rest t :=
  Machine.runSteps_read h hinv.olen_le fun k hk => (hinv.obufDefined k).mpr hk

/-- Settles O52: the read of `OLEN`, then a read of each result byte. -/
theorem readLineYieldsTheResult : Obligations.ReadLineYieldsTheResult := by
  intro s rest hinv hidle hturns htodo
  obtain ⟨t, hrun, h⟩ := hinv.runSteps_read ⟨hidle, hturns, htodo⟩
  exact ⟨t, (core_run_eq ..).trans hrun, h.todo, h.same, h.length, h.got⟩

/-! ## WAIT -/

/-- What `WAIT` leaves from a busy block that completes with `e` and `r` (R61, R201). -/
def afterWait (e : ErrCode) (r : List Byte) (rest : List HostAction) (s : State) : State :=
  (((complete e r s).withTodo rest).noteRead (doneStatus e)).noteStatus (doneStatus e)

theorem afterWait_hostMoves (e : ErrCode) (r : List Byte) (rest : List HostAction) {s : State}
    (hturns : s.turns = []) : HostMoves (afterWait e r rest s) rest :=
  ⟨busyBit_doneStatus e, hturns, rfl⟩

/-- The completion, then a poll that finds `DONE`. -/
theorem runSteps_wait {s : State} {e : ErrCode} {r : List Byte} {rest : List HostAction} (hbusy : s.busy = true)
    (hturns : s.turns = []) (htodo : s.host.todo = .pollDone :: rest)
    (hdone : blockTurn s = .next (complete e r s)) : runSteps 2 s = .next (afterWait e r rest s) := by
  have hmoves : HostMoves (complete e r s) (.pollDone :: rest) := ⟨complete_busy e r s, hturns, htodo⟩
  have hpoll : step (complete e r s) = .next (afterWait e r rest s) :=
    hmoves.step_eq.trans (congrArg Host.Outcome.next (pollStatus_ready (s := (complete e r s).withTodo rest)
      .pollDone (doneBit_doneStatus e)))
  rw [runSteps_succ 1 ((step_busy hbusy hturns).trans hdone), runSteps_one hpoll]

/-- Settles O53: the completion changes nothing of the host, and the poll nothing else. -/
theorem waitLineReturnsTheCompletedStatus : Obligations.WaitLineReturnsTheCompletedStatus := by
  intro s rest hbusy hturns htodo
  obtain ⟨e, r, -, hdone, -⟩ := blockTurn_eq_complete hbusy
  exact ⟨afterWait e r rest s, (core_run_eq ..).trans (runSteps_wait hbusy hturns htodo hdone), rfl, rfl,
    doneBit_doneStatus e, hdone⟩

/-! ## XFER -/

/-- Settles O54: a `READ`, then the reload, then a `LOAD` of the bytes read. -/
theorem xferLineMovesTheResultToTheInput : Obligations.XferLineMovesTheResultToTheInput := by
  intro s rest hinv hidle hturns htodo
  obtain ⟨t, hread, h⟩ := hinv.runSteps_read ⟨hidle, hturns, htodo⟩
  have hmoves : HostMoves t (.reload :: rest) := h.hostMoves hidle
  let u := t.withTodo (loadActions t.host.got ++ rest)
  have hreload : step t = .next u := hmoves.step_eq
  have hlen : t.host.got.length ≤ 52 := h.length ▸ hinv.olen_le
  obtain ⟨v, hload, h'⟩ := runSteps_load (s := u) ⟨hmoves.idle, hmoves.turns, rfl⟩ hlen
  have hrun : runSteps (2 * s.olen.toNat + 3) s = .next v := by
    calc runSteps (2 * s.olen.toNat + 3) s
        = runSteps (s.olen.toNat + 1 + (t.host.got.length + 1 + 1)) s := by rw [h.length]; congr 1; omega
      _ = runSteps (t.host.got.length + 1 + 1) t := runSteps_add _ hread
      _ = runSteps (t.host.got.length + 1) u := runSteps_succ _ hreload
      _ = .next v := hload
  obtain ⟨hcmd, hstatus, -, holen, hibuf, hobuf⟩ := h.same
  refine ⟨v, (core_run_eq ..).trans hrun, congrArg HostAgent.todo h'.host,
    BitVec.eq_of_toNat_eq (h'.ilen.trans h.length), fun k hk => ?_, fun k hk => ?_, h'.obuf.trans hobuf,
    h'.olen.trans holen, h'.cmd.trans hcmd, h'.status.trans hstatus⟩
  · exact (h'.loaded k (h.length ▸ hk)).trans (h.got k hk)
  · exact (h'.kept k (h.length ▸ hk)).trans (congrArg (Memory.lookup · k) hibuf)

/-! ## A transaction -/

/-- Some number of steps leads from `s` to `t`. -/
def Reaches (s t : State) : Prop := ∃ n, runSteps n s = .next t

theorem Reaches.trans {s t u : State} (h : Reaches s t) (h' : Reaches t u) : Reaches s u := by
  obtain ⟨m, hm⟩ := h
  obtain ⟨n, hn⟩ := h'
  exact ⟨m + n, (runSteps_add n hm).trans hn⟩

theorem reaches_of_step {s t : State} (h : step s = .next t) : Reaches s t := ⟨1, runSteps_one h⟩

/-- R204 (1): from an idle block the wait is over at once. -/
theorem reaches_waitIdle_of_idle {s : State} {rest : List HostAction} (h : HostMoves s (.pollIdle :: rest)) :
    ∃ t, Reaches s t ∧ HostMoves t rest ∧ t.host.got = s.host.got := by
  have hready : (!busyBit (s.withTodo rest).status) = true := by rw [Bool.not_eq_true']; exact h.idle
  have hpoll : step s = .next (((s.withTodo rest).noteRead s.status).noteStatus s.status) :=
    h.step_eq.trans (congrArg Host.Outcome.next (pollStatus_ready .pollIdle hready))
  exact ⟨_, reaches_of_step hpoll, ⟨h.idle, h.turns, rfl⟩, rfl⟩

/-- R204 (1): a busy block first completes. -/
theorem reaches_waitIdle {s : State} {rest : List HostAction} (hturns : s.turns = [])
    (htodo : s.host.todo = .pollIdle :: rest) :
    ∃ t, Reaches s t ∧ HostMoves t rest ∧ t.host.got = s.host.got := by
  cases hb : s.busy with
  | false => exact reaches_waitIdle_of_idle ⟨hb, hturns, htodo⟩
  | true =>
    obtain ⟨e, r, -, hdone, -⟩ := blockTurn_eq_complete hb
    obtain ⟨t, hreaches, hmoves, hgot⟩ :=
      reaches_waitIdle_of_idle (s := complete e r s) ⟨complete_busy e r s, hturns, htodo⟩
    exact ⟨t, (reaches_of_step ((step_busy hb hturns).trans hdone)).trans hreaches, hmoves, hgot⟩

/-- R14 (b): presenting an input is the load of its first 52 bytes, then the write of its capped length. -/
theorem programActions_presentLines (f : List Byte) : programActions (presentLines f) =
    loadActions (f.take 52) ++ [.memWrite Config.offIlen 1 (BitVec.ofNat 8 (min f.length 255))] := by
  simp [programActions, presentLines, lineActions]

/-- R204 (2): the input stands presented. -/
theorem reaches_presented {s : State} {f : List Byte} {rest : List HostAction}
    (h : HostMoves s (programActions (presentLines f) ++ rest)) :
    ∃ t, Reaches s t ∧ HostMoves t rest ∧ Presents t f ∧ t.host.got = s.host.got := by
  rw [programActions_presentLines, List.append_assoc, List.singleton_append] at h
  have hcut : (f.take 52).length = min 52 f.length := List.length_take
  obtain ⟨t, hload, h'⟩ := runSteps_load h (by omega)
  have hmoves := h'.hostMoves h.idle
  have hwrite := hmoves.step_write
  rw [hostWrite_ilen (s := t.withTodo rest) hmoves.idle] at hwrite
  refine ⟨_, Reaches.trans ⟨_, hload⟩ (reaches_of_step hwrite), ⟨hmoves.idle, hmoves.turns, rfl⟩,
    ⟨?_, fun k hk hlen => ?_⟩, h'.got⟩
  · exact (BitVec.toNat_ofNat _ _).trans (Nat.mod_eq_of_lt (by omega))
  · have hk52 : k < 52 := hk
    exact (h'.loaded k (by omega)).trans (List.getElem?_take_of_lt hk52)

/-- R18 (b): a busy block whose command is `i`, with `f` presented, completes with the function of `f`. -/
theorem blockTurn_of_presents {i : Instr} {f : List Byte} {s : State} (hlen : operandLen i ≤ f.length)
    (hpresents : Presents s f) (hbusy : s.busy = true) (hcmd : s.cmd = encode i) :
    blockTurn s = .next (completion (functionOf i f) s) := by
  have hdec : decode s.cmd = .ok i := by rw [hcmd, decode_encode]
  rw [blockTurn_of_busy hbusy, completeCommand_of_decode hdec, exec_of_presents hlen hpresents]

/-- R204 (3), (4): the command is accepted, completes with its function, and the wait ends. -/
theorem reaches_afterWait {i : Instr} {f : List Byte} {s : State} {e : ErrCode} {r : List Byte}
    {rest : List HostAction} (hlen : operandLen i ≤ f.length)
    (hfunction : ∀ t, completion (functionOf i f) t = complete e r t) (hpresents : Presents s f)
    (h : HostMoves s (.memWrite Config.offCmd 1 (encode i) :: .pollDone :: rest)) :
    Reaches s (afterWait e r rest (accept (encode i) (s.withTodo (.pollDone :: rest)))) := by
  let t := accept (encode i) (s.withTodo (.pollDone :: rest))
  have hbusy : t.busy = true := accept_busy ..
  have haccept : step s = .next t :=
    h.step_write.trans (congrArg Host.Outcome.next (hostWrite_cmd (s := s.withTodo (.pollDone :: rest)) h.idle _))
  have hdone : blockTurn t = .next (complete e r t) :=
    (blockTurn_of_presents (s := t) hlen hpresents hbusy (accept_cmd ..)).trans
      (congrArg Host.Outcome.next (hfunction t))
  exact (reaches_of_step haccept).trans ⟨2, runSteps_wait hbusy h.turns rfl hdone⟩

/-- R204 (5), R198: after an error the host stops, with the code as the status it saw. -/
theorem reaches_stop {e : ErrCode} {r : List Byte} {rest : List HostAction} {s : State} (hturns : s.turns = [])
    (he : e ≠ .ok) :
    Reaches (afterWait e r (.stopOnError :: rest) s) ((afterWait e r rest s).withTodo []) := by
  have herr : errBits (doneStatus e) ≠ 0 := by rwa [errBits_doneStatus, Ne, ErrCode.code_eq_zero_iff]
  exact reaches_of_step ((afterWait_hostMoves e r _ hturns).step_eq.trans
    (congrArg Host.Outcome.next (if_neg herr)))

/-- R204 (5), (6): after a success the host reads the result. -/
theorem reaches_result {r : List Byte} {s : State} (hturns : s.turns = []) (hlen : r.length ≤ 52) :
    ∃ t, Reaches (afterWait .ok r [.stopOnError, .readLen] s) t ∧ AfterRead (afterWait .ok r [.readLen] s) [] t ∧
      t.host.got = r := by
  have hgoesOn : step (afterWait .ok r [.stopOnError, .readLen] s) = .next (afterWait .ok r [.readLen] s) :=
    (afterWait_hostMoves .ok r [.stopOnError, .readLen] hturns).step_eq.trans
      (congrArg Host.Outcome.next (if_pos (errBits_doneStatus .ok)))
  have holen : (afterWait .ok r [.readLen] s).olen.toNat = r.length := complete_olen_toNat .ok s hlen
  have hobuf (k : Nat) : Memory.lookup (afterWait .ok r [.readLen] s).obuf k = r[k]? := lookup_ofBytes r k
  obtain ⟨t, hread, h⟩ := runSteps_read (afterWait_hostMoves .ok r [.readLen] hturns) (by omega)
    fun k hk => by rw [hobuf, isSome_getElem?]; omega
  refine ⟨t, (reaches_of_step hgoesOn).trans ⟨_, hread⟩, h, List.ext_getElem? fun k => ?_⟩
  have hgot := h.length
  by_cases hk : k < r.length
  · rw [h.got k (by omega), hobuf]
  · rw [List.getElem?_eq_none (by omega), List.getElem?_eq_none (by omega)]

/-- The accesses of a transaction, line by line. -/
theorem programActions_transaction (i : Instr) (f : List Byte) : programActions (transaction i f) =
    .pollIdle :: (programActions (presentLines f) ++
      ([.memWrite Config.offCmd 1 (encode i), .pollDone, .stopOnError, .readLen] : List HostAction)) := by
  simp [programActions, transaction, lineActions]

/-- Settles O50: the lines of R204 in their order; at `stopOnError` the two outcomes of the function part. -/
theorem transactionCallsTheFunction : Obligations.TransactionCallsTheFunction := by
  intro i f s hlen hturns htodo
  rw [programActions_transaction] at htodo
  obtain ⟨t₁, hidle, hmoves₁, hgot₁⟩ := reaches_waitIdle hturns htodo
  obtain ⟨t₂, hpresent, hmoves₂, hpresents, hgot₂⟩ := reaches_presented hmoves₁
  have hstart : Reaches s t₂ := hidle.trans hpresent
  let a := accept (encode i) (t₂.withTodo [.pollDone, .stopOnError, .readLen])
  have hturns₂ : a.turns = [] := hmoves₂.turns
  cases hf : functionOf i f with
  | ok r =>
    have hwait := reaches_afterWait (e := .ok) (r := r) hlen (fun _ => by rw [hf]; rfl) hpresents hmoves₂
    obtain ⟨t, hresult, h, hgot⟩ := reaches_result (s := a) hturns₂ (functionOf_length_le hf)
    obtain ⟨n, hrun⟩ := (hstart.trans hwait).trans hresult
    exact ⟨n, t, (core_run_eq ..).trans hrun, h.todo, h.same.busy.trans (complete_busy .ok r a), h.same.cmd,
      by rw [h.status]; exact errBits_doneStatus .ok, hgot⟩
  | error e =>
    have hwait := reaches_afterWait (e := e) (r := []) hlen (fun _ => by rw [hf]; rfl) hpresents hmoves₂
    obtain ⟨n, hrun⟩ := (hstart.trans hwait).trans (reaches_stop hturns₂ (functionOf_error_ne_ok hf))
    exact ⟨n, _, (core_run_eq ..).trans hrun, rfl, complete_busy e [] a, rfl, errBits_doneStatus e,
      hgot₂.trans hgot₁⟩

end Sys2Proof.Machine
end

/-! # Proofs about the text layer (R133, R135 to R138)

The rendering of a color and its digits, the splitting and trimming of RGB text, and the pairing of BGR text. -/

section
namespace Sys2Proof.Machine

/-! ## Rendering -/

/-- R133: the digit of a value is one of the sixteen, and has that value. -/
theorem hexChar_spec : ∀ n < 16, hexDigit (hexChar n) = some n ∧
    hexChar n ∈ ['0', '1', '2', '3', '4', '5', '6', '7', '8', '9', 'a', 'b', 'c', 'd', 'e', 'f'] := by
  decide

/-- R133: the quotient and the remainder of a byte by 16 have digits. -/
theorem byteHex_digits_lt (b : Byte) : b.toNat / 16 < 16 ∧ b.toNat % 16 < 16 := by
  have hb := b.isLt
  omega

/-- R133, R134: the two digits of a byte are a pair with its value. -/
theorem hexPair_byteHex (b : Byte) : hexPair (hexChar (b.toNat / 16)) (hexChar (b.toNat % 16)) = some b := by
  obtain ⟨hhi, hlo⟩ := byteHex_digits_lt b
  exact (hexPair_eq_some_iff _ _ _).mpr ⟨_, _, (hexChar_spec _ hhi).1, (hexChar_spec _ hlo).1,
    (Nat.div_add_mod b.toNat 16).symm⟩

theorem parseHexColor_renderHexColor (c : Color) : parseHexColor (renderHexColor c) = .ok c :=
  (parseHexColor_eq_ok_iff _ _).mpr
    ⟨_, _, _, _, _, _, rfl, hexPair_byteHex c.r, hexPair_byteHex c.g, hexPair_byteHex c.b⟩

theorem mem_byteHex {b : Byte} {ch : Char} (h : ch ∈ byteHex b) :
    ch ∈ ['0', '1', '2', '3', '4', '5', '6', '7', '8', '9', 'a', 'b', 'c', 'd', 'e', 'f'] := by
  obtain ⟨hhi, hlo⟩ := byteHex_digits_lt b
  rw [byteHex, List.mem_pair] at h
  obtain rfl | rfl := h
  · exact (hexChar_spec _ hhi).2
  · exact (hexChar_spec _ hlo).2

/-- Settles O56: three bytes, each rendered as a pair of digits with its value. -/
theorem renderedHexColorParsesBack : Obligations.RenderedHexColorParsesBack := by
  refine fun c => ⟨rfl, fun ch h => ?_, parseHexColor_renderHexColor c⟩
  rw [renderHexColor, List.mem_append, List.mem_append] at h
  obtain (h | h) | h := h <;> exact mem_byteHex h

/-! ## Lines -/

/-- R135 step 1: where a break stands at the head of the text, an empty line ends there. -/
theorem splitLines_of_break {p : HostParams} {text b : List Char}
    (h : p.lineBreaks.find? (fun b => !b.isEmpty && b.isPrefixOf text) = some b) :
    splitLines p text = [] :: splitLines p (text.drop b.length) := by
  have hbreak : breakLength p text = some b.length := by rw [breakLength, h]; rfl
  have hb := List.find?_some h
  cases b with
  | nil => simp at hb
  | cons x b =>
    cases text with
    | nil => simp at hb
    | cons c cs =>
      simp only [splitLines, splitFrom, hbreak]
      rw [splitFrom_skip]
      rfl

/-- R135 step 1: any other character stands at the front of the line that follows. -/
theorem splitLines_cons {p : HostParams} {c : Char} {cs : List Char}
    (h : p.lineBreaks.find? (fun b => !b.isEmpty && b.isPrefixOf (c :: cs)) = none) :
    ∃ l ls, splitLines p cs = l :: ls ∧ splitLines p (c :: cs) = (c :: l) :: ls := by
  have hbreak : breakLength p (c :: cs) = none := by rw [breakLength, h]; rfl
  obtain ⟨l, ls, hrest, hline⟩ := splitFrom_line p [c] cs
  refine ⟨l, ls, hrest, ?_⟩
  rw [splitLines, splitFrom, hbreak]
  exact hline

theorem isSpace_iff (p : HostParams) (ch : Char) : isSpace p ch = true ↔ ch ∈ p.whitespace := by simp [isSpace]

theorem isBlank_iff (p : HostParams) (l : List Char) : isBlank p l = true ↔
    if p.blankIsWhitespaceOnly then ∀ ch ∈ l, ch ∈ p.whitespace else l = [] := by
  unfold isBlank
  split
  · simp only [List.all_eq_true, isSpace_iff]
  · exact List.isEmpty_iff

/-- The first character that is kept after dropping whitespace is none. -/
theorem not_mem_whitespace_of_head? {p : HostParams} {l : List Char} {ch : Char}
    (h : (l.dropWhile (isSpace p)).head? = some ch) : ch ∉ p.whitespace := by
  have hkept := List.head?_dropWhile_not (isSpace p) l
  rw [h] at hkept
  rw [← isSpace_iff]
  exact ne_true_of_eq_false hkept

/-- R146: trimming removes whitespace, at both ends and only there. -/
theorem trim_spec (p : HostParams) (l : List Char) : ∃ a b, l = a ++ trim p l ++ b ∧
    (∀ ch ∈ a ++ b, ch ∈ p.whitespace) ∧ (∀ ch, (trim p l).head? = some ch → ch ∉ p.whitespace) ∧
    ∀ ch, (trim p l).getLast? = some ch → ch ∉ p.whitespace := by
  have hend : trim p l ++ (l.dropWhile (isSpace p)).rtakeWhile (isSpace p) = l.dropWhile (isSpace p) :=
    List.rdropWhile_append_rtakeWhile
  refine ⟨l.takeWhile (isSpace p), (l.dropWhile (isSpace p)).rtakeWhile (isSpace p), ?_, fun ch h => ?_,
    fun ch h => ?_, fun ch h => ?_⟩
  · rw [List.append_assoc, hend, List.takeWhile_append_dropWhile]
  · rw [← isSpace_iff]
    obtain h | h := List.mem_append.mp h
    · exact List.mem_takeWhile_imp h
    · exact List.mem_rtakeWhile_imp h
  · obtain ⟨rest, hrest⟩ := List.head?_eq_some_iff.mp h
    refine not_mem_whitespace_of_head? (l := l) ?_
    rw [← hend, hrest]
    rfl
  · rw [trim, List.getLast?_reverse] at h
    exact not_mem_whitespace_of_head? h

/-! ## RGB text -/

theorem parseRgbText_length (p : HostParams) (text : List Char) : (parseRgbText p text).length = 16 :=
  padPalette_length ((List.length_filterMap_le _ _).trans (List.length_take_le _ _))

/-- Settles O58: the splitter character by character, the two line tests, then the colors and the padding. -/
theorem rgbTextGivesValidLinesThenBlack : Obligations.RgbTextGivesValidLinesThenBlack := by
  intro p text
  refine ⟨?_, fun b hb => splitLines_of_break hb, ?_, isBlank_iff p, trim_spec p, parseRgbText_length p text,
    fun k hk => padPalette_getElem? _ hk⟩
  · rintro rfl
    rfl
  · rintro c cs rfl hnone
    exact splitLines_cons hnone

/-! ## BGR text -/

theorem pairBytes_length : ∀ cs : List Char, (pairBytes cs).length = cs.length / 2
  | [] | [_] => by simp [pairBytes]
  | _ :: _ :: rest => by simp only [pairBytes, List.length_cons, pairBytes_length rest]; omega

/-- R137: byte `j` is the pair of characters `2j` and `2j + 1`. -/
theorem pairBytes_getElem? : ∀ (cs : List Char) (j : Nat),
    (pairBytes cs)[j]? = cs[2 * j]?.bind fun x => cs[2 * j + 1]?.map fun y => (hexPair x y).getD 0
  | [], _ => by simp [pairBytes]
  | [_], 0 => rfl
  | [_], j + 1 => by simp [pairBytes, Nat.mul_succ]
  | _ :: _ :: _, 0 => rfl
  | _ :: _ :: rest, j + 1 => by simpa [pairBytes, Nat.mul_succ] using pairBytes_getElem? rest j

theorem hexPair_of_digits {a b : Char} {x y : Nat} (ha : hexDigit a = some x) (hb : hexDigit b = some y) :
    hexPair a b = some (BitVec.ofNat 8 (16 * x + y)) := by
  simp only [hexPair, ha, hb]

/-- The text without its whitespace (R137 step 1). -/
def stripped (p : HostParams) (text : List Char) : List Char := text.filter fun ch => !isSpace p ch

theorem mem_stripped {p : HostParams} {text : List Char} {ch : Char} :
    ch ∈ stripped p text ↔ ch ∈ text ∧ isSpace p ch = false := by
  simp [stripped]

/-- R138: one character that is no digit fails the whole text. -/
theorem bgrTextBytes_of_not_hex {p : HostParams} {text : List Char} {ch : Char} (hmem : ch ∈ text)
    (hspace : isSpace p ch = false) (hdigit : hexDigit ch = none) :
    bgrTextBytes p text = .error .invalidByteSequence := by
  refine if_neg fun hall => ?_
  have hhex := List.all_eq_true.mp hall ch (mem_stripped.mpr ⟨hmem, hspace⟩)
  simp [isHex, hdigit] at hhex

/-- R137: a text of digits and whitespace gives the pairs of its digits. -/
theorem bgrTextBytes_of_hex {p : HostParams} {text : List Char}
    (h : ∀ ch ∈ text, isSpace p ch = true ∨ ∃ x, hexDigit ch = some x) :
    bgrTextBytes p text = .ok (pairBytes (stripped p text)) := by
  refine if_pos (List.all_eq_true.mpr fun ch hmem => ?_)
  obtain ⟨htext, hspace⟩ := mem_stripped.mp hmem
  obtain htrue | ⟨x, hx⟩ := h ch htext
  · exact absurd htrue (ne_true_of_eq_false hspace)
  · simp [isHex, hx]

/-- Settles O59: the three functions fail or succeed with `bgrTextBytes`. -/
theorem bgrTextFailsExactlyOnNonHexCharacters : Obligations.BgrTextFailsExactlyOnNonHexCharacters := by
  intro p text
  constructor
  · rintro ⟨ch, hmem, hspace, hdigit⟩
    have herr := bgrTextBytes_of_not_hex hmem hspace hdigit
    exact ⟨herr, by rw [parseBgrText, herr], by rw [bgrTextProgram, herr]⟩
  · intro h
    have hok := bgrTextBytes_of_hex h
    refine ⟨_, bgrColors (pairBytes (stripped p text)), hok, by rw [parseBgrText, hok], by rw [bgrTextProgram, hok],
      bgrColors_length _, rfl, pairBytes_length _, fun j a b x y ha hb hx hy => ?_⟩
    have hbyte := pairBytes_getElem? (stripped p text) j
    rw [stripped, ha, hb, Option.bind_some, Option.map_some, hexPair_of_digits hx hy] at hbyte
    exact hbyte

end Sys2Proof.Machine
end
